-- ==== Sys2Proof/Word.lean ====
section
/-! DEFINITION. The plain types of the machine: words, tagged Data values, register views and operands. What is computed
with them stands in Decode.lean and under Machine/. -/

namespace Sys2Proof

/-- One byte lane of a register family (10_state R11). -/
abbrev Byte := BitVec 8

/-- A 32-bit unsigned operand (20_memory R52, 42_add_sub R154). -/
abbrev Word32 := BitVec 32

/-- An instruction word, bit 95 the most significant (30_encoding R81). -/
abbrev W96 := BitVec 96

/-- A symbol id, the key of a memory cell (20_memory R55). -/
abbrev SymId := BitVec 16

/-- A width tag: 1, 2 or 4 bytes (20_memory R51). -/
inductive Width where
  | byte
  | word
  | dword
  deriving DecidableEq, Repr

/-- A Data value: a width tag and an unsigned integer of that width. The value cannot exceed its width's range
(20_memory R51: "stored value never exceeds the width's numeric range"). -/
inductive Data where
  | byte  (v : BitVec 8)
  | word  (v : BitVec 16)
  | dword (v : BitVec 32)
  deriving DecidableEq, Repr

/-- The four register families (10_state R11). -/
inductive Family where
  | A
  | B
  | C
  | D
  deriving DecidableEq, Repr

/-- The eight register views, in the order of their ids 0 to 7 (10_state R12). -/
inductive RegView where
  | ax
  | bx
  | cx
  | dx
  | eax
  | ebx
  | ecx
  | edx
  deriving DecidableEq, Repr

/-- An operand: "a closed variant over {Register, Memory(reference), Immediate(Data)}" (30_encoding R80). -/
inductive Operand where
  | reg (r : RegView)
  | mem (s : SymId)
  | imm (d : Data)
  deriving DecidableEq, Repr

end Sys2Proof
end

