-- ==== Sys2Proof/Machine/State.lean ====
section
/-! DEFINITION. The state of the machine as plain data (10_state R10), the reasons a step may stop, and the state after
reset (10_state R34). -/

namespace Sys2Proof.Machine

/-- One register family: four byte lanes, lane 0 the least significant (10_state R11). -/
structure Lanes where
  b0 : Byte
  b1 : Byte
  b2 : Byte
  b3 : Byte
  deriving DecidableEq, Repr

/-- General-purpose storage: four families, 16 bytes in all (10_state R11). -/
structure GprFile where
  A : Lanes
  B : Lanes
  C : Lanes
  D : Lanes
  deriving DecidableEq, Repr

/-- The nine flags, each a separate bit (10_state R24). -/
structure Flags where
  CF : Bool
  ZF : Bool
  SF : Bool
  OF : Bool
  PF : Bool
  AF : Bool
  IF : Bool
  DF : Bool
  TF : Bool
  deriving DecidableEq, Repr

/-- Why a run is over (10_state R28, 70_reset R217). -/
inductive HaltReason where
  /-- IP reached NINSTR. -/
  | endOfCode
  /-- Syscall number 60. -/
  | exit
  /-- A fatal error. -/
  | fault
  deriving DecidableEq, Repr

/-- The run state `st` (10_state R28). -/
inductive RunState where
  | idle
  | fetching
  | decoding (opc : BitVec 8)
  | halted (reason : HaltReason)
  deriving DecidableEq, Repr

/-- The fatal causes (60_exceptions R180); `none` is code 0, no fault. -/
inductive FaultCause where
  | none
  | undeclaredMemoryAccess
  | useOfUninitializedMemory
  | wrongArity
  | illegalAddressingMode
  | unimplementedOpcode
  | aluModeOff
  | illegalEncoding
  deriving DecidableEq, Repr

/-- The operand a fault record names: operand 0, operand 1, or no particular one (10_state R29). -/
inductive FaultOperand where
  | operand0
  | operand1
  | noOperand
  deriving DecidableEq, Repr

/-- The fault record (10_state R29). -/
structure FaultRecord where
  cause   : FaultCause
  index   : BitVec 16
  operand : FaultOperand
  info    : BitVec 32
  deriving DecidableEq, Repr

/-- What a raising rule gives of a fatal error: the cause, the operand and the info word; the index is the machine's to
add at the entry (60_exceptions R191). -/
structure Fatal where
  cause   : FaultCause
  operand : FaultOperand
  info    : BitVec 32
  deriving DecidableEq, Repr

/-- The ALU's modes (42_add_sub R150); its "others reserved/unimplemented" have no name and no encoding. -/
inductive AluMode where
  | off
  | add
  | sub
  deriving DecidableEq, Repr

/-- The ALU's scratch (10_state R31). -/
structure Alu where
  mode : AluMode
  dst  : BitVec 32
  src  : BitVec 32
  deriving DecidableEq, Repr

/-- Where a memory cell was declared (20_memory R54). -/
inductive Section where
  | data
  | bss
  deriving DecidableEq, Repr

/-- A memory cell: its section, its value with its declared width, and whether a write has occurred (20_memory R54). -/
structure MemCell where
  sect    : Section
  data    : Data
  written : Bool
  deriving DecidableEq, Repr

/-- The symbol table: (symbol id, cell) pairs, ids strictly rising; an id that is not listed is not declared, its cell
absent (20_memory R54, R55). -/
abbrev Memory := List (Nat × MemCell)

/-- What a diagnostic names as the destination (10_state R33). -/
inductive Dest where
  | reg (r : RegView)
  | sym (s : SymId)
  deriving DecidableEq, Repr

/-- The events of the event stream (10_state R33). -/
inductive Event where
  | regSet (r : RegView) (y : BitVec 32)
  | memSet (s : SymId) (y : BitVec 32)
  | ofSet
  | diagTrunc (dest : Dest) (lost : BitVec 32)
  | diagWiden (dest : Dest)
  | diagSelfMove (r : RegView)
  | errUnknownSyscall (n : BitVec 32)
  | ioWrite (fd count : BitVec 32) (s : SymId) (d : Data)
  deriving DecidableEq, Repr

/-- The complete state (10_state R10), with the parameters of a run that the loader fixes (10_state R36) and the model's
own counter of `io_read` calls. -/
structure State where
  /-- `lane[f][k]` (10_state R11). -/
  gpr        : GprFile
  /-- SP, read and written by no instruction (10_state R23). -/
  sp         : BitVec 16
  /-- BP, read and written by no instruction (10_state R23). -/
  bp         : BitVec 16
  /-- IP, the index of the next instruction to fetch (10_state R22). -/
  ip         : BitVec 16
  /-- The nine flags (10_state R24). -/
  flags      : Flags
  /-- `st` (10_state R28). -/
  st         : RunState
  /-- `fault` (10_state R29). -/
  fault      : FaultRecord
  /-- `exit_status` (10_state R30). -/
  exitStatus : BitVec 32
  /-- `alu_mode`, `alu_dst`, `alu_src` (10_state R31). -/
  alu        : Alu
  /-- `cell[s]` (20_memory R54). -/
  mem        : Memory
  /-- `ev`, oldest event first (10_state R33). -/
  ev         : List Event
  /-- `code[0 .. NINSTR-1]`, NINSTR its length: a parameter of the run (10_state R36; log 4). -/
  code       : List W96
  /-- WIDEN_DIAG: a parameter of the run (00_scope R4; log 7). -/
  widenDiag  : Bool
  /-- The model's own: how many `io_read` calls were made, the argument of the free value `Config.ioRead` (log 5). -/
  ioCalls    : Nat
  deriving DecidableEq, Repr

/-- Why a step has no next state. The spec's fatal errors are NOT here: each of them is a next state, its fault entry
(60_exceptions R191). -/
inductive Fault where
  /-- Raised by `step` in a Halted state: "In any Halted state the machine has no step" (40_decode R122). Safe: the run
  is over and nothing is claimed of what follows (log 2). -/
  | alreadyHalted
  /-- Raised by `step` when IP is greater than NINSTR, where the spec gives no fetch (40_decode R111). No run reaches it
  (10_state R22: IP ≤ NINSTR at all times). Safe (log 10). -/
  | fetchBeyondCode
  /-- Raised by `step` when the loaded program has more than 65535 instructions, which the spec gives no meaning
  (decision D13, 70_reset R212). Safe (log 10). -/
  | programTooLong
  /-- Raised by `step` in a state Decoding(opc) that no fetch made: IP is 0, or the word at IP - 1 is not there or has
  another opcode. No run reaches it (40_decode R111). Safe (log 10). -/
  | nothingFetched
  deriving DecidableEq, Repr

/-- Why a step has no meaning in the model. -/
inductive Refusal where
  /-- Raised by `exec` for an instruction without a meaning; no arm of `exec` raises it in this model. Safe. -/
  | notModelled (mnemonic : String)
  deriving DecidableEq, Repr

/-- What a step or a meaning answers. -/
abbrev Result := Host.Outcome State Fault Refusal

def Lanes.zero : Lanes := ⟨0, 0, 0, 0⟩

def Flags.clear : Flags := ⟨false, false, false, false, false, false, false, false, false⟩

/-- No fault: cause 0 and the other fields 0 (10_state R29). -/
def FaultRecord.clear : FaultRecord := ⟨.none, 0, .operand0, 0⟩

/-- The machine right after construction, with no program loaded (10_state R34, 70_reset R210, R211). -/
def State.reset : State where
  gpr        := ⟨.zero, .zero, .zero, .zero⟩
  sp         := 0
  bp         := 0
  ip         := 0
  flags      := .clear
  st         := .idle
  fault      := .clear
  exitStatus := 0
  alu        := ⟨.off, 0, 0⟩
  mem        := []
  ev         := []
  code       := []
  widenDiag  := false
  ioCalls    := 0

end Sys2Proof.Machine
end

