-- ==== Sys2Proof/Machine/Flags.lean ====
section
/-! DEFINITION. The ALU's two operations with their overflow output, the overflow flag, and the port codes of the status
state (42_add_sub R150 to R154; 10_state R25 to R29). -/

namespace Sys2Proof.Machine

/-- The carry out of bit 31 of an unsigned 32-bit add (42_add_sub R151). -/
def addOverflow (a b : BitVec 32) : Bool := decide (2 ^ 32 ≤ a.toNat + b.toNat)

/-- The borrow of an unsigned 32-bit subtract (42_add_sub R152). -/
def subOverflow (a b : BitVec 32) : Bool := decide (a.toNat < b.toNat)

/-- `execute()`: the result and the overflow output of the active mode; none in mode Off (42_add_sub R151 to R153). -/
def Alu.execute (u : Alu) : Option (BitVec 32 × Bool) :=
  match u.mode with
  | .off => none
  | .add => some (BitVec.ofNat 32 (u.dst.toNat + u.src.toNat), addOverflow u.dst u.src)
  | .sub => some (BitVec.ofInt 32 ((u.dst.toNat : Int) - u.src.toNat), subOverflow u.dst u.src)

/-- `OF <- ovf`, an assignment; the other flags are latched (10_state R25, R26). -/
def Flags.setOverflow (f : Flags) (ovf : Bool) : Flags := { f with OF := ovf }

/-- OF_SET is emitted when OF is assigned 1 (10_state R33, 42_add_sub R155). -/
def overflowEvents (ovf : Bool) : List Event := if ovf then [.ofSet] else []

/-- `FLAGS[8:0]`, bit 0 CF to bit 8 TF (10_state R27). -/
def Flags.pack (f : Flags) : BitVec 9 :=
  BitVec.ofBool f.TF ++ BitVec.ofBool f.DF ++ BitVec.ofBool f.IF ++ BitVec.ofBool f.AF ++ BitVec.ofBool f.PF ++
    BitVec.ofBool f.OF ++ BitVec.ofBool f.SF ++ BitVec.ofBool f.ZF ++ BitVec.ofBool f.CF

/-- The run state on a status port (10_state R28). -/
def RunState.portCode : RunState → BitVec 3
  | .idle => 0
  | .fetching => 1
  | .decoding _ => 2
  | .halted .endOfCode => 4
  | .halted .exit => 5
  | .halted .fault => 6

/-- The cause code (60_exceptions R180). -/
def FaultCause.code : FaultCause → BitVec 4
  | .none => 0
  | .undeclaredMemoryAccess => 1
  | .useOfUninitializedMemory => 2
  | .wrongArity => 3
  | .illegalAddressingMode => 4
  | .unimplementedOpcode => 5
  | .aluModeOff => 6
  | .illegalEncoding => 7

/-- The code of the operand a record names (10_state R29). -/
def FaultOperand.code : FaultOperand → BitVec 2
  | .operand0 => 0
  | .operand1 => 1
  | .noOperand => 3

end Sys2Proof.Machine
end

