-- ==== Sys2Proof/Machine/Data.lean ====
section
/-! DEFINITION. Widths, Data values and register views: the conversions every other file uses (20_memory R51 to R53,
10_state R12). -/

namespace Sys2Proof

/-- `bytes(w)` (00_scope R5). -/
def Width.bytes : Width → Nat
  | .byte => 1
  | .word => 2
  | .dword => 4

/-- `bits(w) = 8 × bytes(w)` (00_scope R5). -/
def Width.bits (w : Width) : Nat := 8 * w.bytes

/-- The narrower of two widths (the `min(bytes(w), bytes(rw(id)))` of 10_state R15). -/
def Width.narrower (a b : Width) : Width := if a.bytes ≤ b.bytes then a else b

/-- The width tag of a Data value (20_memory R51). -/
def Data.width : Data → Width
  | .byte _ => .byte
  | .word _ => .word
  | .dword _ => .dword

/-- `get_value`: the zero-extended 32-bit value (20_memory R52). -/
def Data.value : Data → Word32
  | .byte v => v.setWidth 32
  | .word v => v.setWidth 32
  | .dword v => v

/-- The Data value `(w, trunc_bits(w)(v))` (00_scope R5). -/
def Data.ofValue (w : Width) (v : Word32) : Data :=
  match w with
  | .byte => .byte (v.setWidth 8)
  | .word => .word (v.setWidth 16)
  | .dword => .dword v

/-- `conv(dw, D)`: the destination keeps its width, the value is cut or zero-extended to it (20_memory R53). -/
def Data.conv (dw : Width) (d : Data) : Data := Data.ofValue dw d.value

/-- `fam(id)`, the family a view reads (10_state R12). -/
def RegView.fam : RegView → Family
  | .ax | .eax => .A
  | .bx | .ebx => .B
  | .cx | .ecx => .C
  | .dx | .edx => .D

/-- `rw(id)`, the view's native width: Word for ids 0 to 3, Dword for ids 4 to 7 (10_state R12). -/
def RegView.width : RegView → Width
  | .ax | .bx | .cx | .dx => .word
  | .eax | .ebx | .ecx | .edx => .dword

/-- The 16-bit view of a family. -/
def Family.view16 : Family → RegView
  | .A => .ax
  | .B => .bx
  | .C => .cx
  | .D => .dx

/-- The 32-bit view of a family. -/
def Family.view32 : Family → RegView
  | .A => .eax
  | .B => .ebx
  | .C => .ecx
  | .D => .edx

/-- The number of a view (10_state R12, 30_encoding R84). -/
def RegView.id : RegView → BitVec 3
  | .ax => 0
  | .bx => 1
  | .cx => 2
  | .dx => 3
  | .eax => 4
  | .ebx => 5
  | .ecx => 6
  | .edx => 7

/-- The view of a number (30_encoding R84). -/
def RegView.ofId (n : BitVec 3) : RegView :=
  match n.toNat with
  | 0 => .ax
  | 1 => .bx
  | 2 => .cx
  | 3 => .dx
  | 4 => .eax
  | 5 => .ebx
  | 6 => .ecx
  | _ => .edx

end Sys2Proof
end

