-- ==== Sys2Proof/Syntax.lean ====
section
/-! DEFINITION. The instructions: one constructor for each of the 16 forms of spec/opcode_table.json (30_encoding R91),
the destination operand first. -/

namespace Sys2Proof

inductive Instr where
  /-- `Mov rd, rs` (41_mov R140). -/
  | movRR (rd rs : RegView)
  /-- `Mov rd, [m]` (41_mov R141). -/
  | movRM (rd : RegView) (m : SymId)
  /-- `Mov rd, imm` (41_mov R142). -/
  | movRI (rd : RegView) (d : Data)
  /-- `Mov [m], rs` (41_mov R143). -/
  | movMR (m : SymId) (rs : RegView)
  /-- `Mov [m], imm` (41_mov R144). -/
  | movMI (m : SymId) (d : Data)
  /-- `Add rd, rs` (42_add_sub R156). -/
  | addRR (rd rs : RegView)
  /-- `Add rd, [m]` (42_add_sub R157). -/
  | addRM (rd : RegView) (m : SymId)
  /-- `Add rd, imm` (42_add_sub R158). -/
  | addRI (rd : RegView) (d : Data)
  /-- `Add [m], rs` (42_add_sub R159). -/
  | addMR (m : SymId) (rs : RegView)
  /-- `Add [m], imm` (42_add_sub R160). -/
  | addMI (m : SymId) (d : Data)
  /-- `Sub rd, rs` (42_add_sub R161). -/
  | subRR (rd rs : RegView)
  /-- `Sub rd, [m]` (42_add_sub R162). -/
  | subRM (rd : RegView) (m : SymId)
  /-- `Sub rd, imm` (42_add_sub R163). -/
  | subRI (rd : RegView) (d : Data)
  /-- `Sub [m], rs` (42_add_sub R164). -/
  | subMR (m : SymId) (rs : RegView)
  /-- `Sub [m], imm` (42_add_sub R165). -/
  | subMI (m : SymId) (d : Data)
  /-- `Syscall` (43_syscall R170). -/
  | syscall
  deriving DecidableEq, Repr

end Sys2Proof
end

