-- ==== Sys2Proof/WellFormed.lean ====
section
/-! DEFINITION. The abstract instruction of 30_encoding R80 and what makes one a form of the instruction set: the
conditions of R113, R114 and R115 on it, written as predicates of their own, beside the decoder's named checks. A term
of `Instr` cannot be ill-formed; an abstract instruction can. -/

namespace Sys2Proof

/-- The abstract instruction as decoded from a word: opcode tag, operand count, and the operands the word carries (its
first two at most); the count is kept apart from the list (30_encoding R80, R86). -/
structure RawInstr where
  opc  : BitVec 8
  nops : BitVec 4
  ops  : List Operand
  deriving DecidableEq, Repr

/-- The opcode is one of Mov, Add, Sub, Syscall (30_encoding R83). -/
def RawInstr.opcodeOk (r : RawInstr) : Bool :=
  r.opc == 1 || r.opc == 2 || r.opc == 3 || r.opc == 4

/-- The operand count is the opcode's arity: 0 for Syscall, 2 for the others (30_encoding R89). -/
def RawInstr.arityOk (r : RawInstr) : Bool :=
  r.nops == if r.opc == 4 then 0 else 2

/-- The list holds the first `min(nops, 2)` operands (30_encoding R86). -/
def RawInstr.listOk (r : RawInstr) : Bool :=
  r.ops.length == min r.nops.toNat 2

/-- The destination is no immediate (30_encoding R90). -/
def RawInstr.destOk (r : RawInstr) : Bool :=
  match r.ops with
  | .imm _ :: _ => false
  | _ => true

/-- The pair of operands is not memory/memory (30_encoding R90). -/
def RawInstr.pairOk (r : RawInstr) : Bool :=
  match r.ops with
  | [.mem _, .mem _] => false
  | _ => true

/-- An abstract instruction that is one of the 16 forms (30_encoding R91). -/
def RawInstr.wellFormed (r : RawInstr) : Bool :=
  r.opcodeOk && r.arityOk && r.listOk && r.destOk && r.pairOk

end Sys2Proof
end

