-- ==== Sys2Proof/Decode.lean ====
section
/-! DEFINITION. The decoder of the 96-bit word, total and rejecting by name in the order of 40_decode_execute R112, and
the encoder written from the same tables (30_encoding R81 to R92). -/

namespace Sys2Proof

/-- Why a word is no instruction (30_encoding R92). -/
inductive DecodeReject where
  /-- The word is ill-formed (R87, R187). -/
  | illegalEncoding
  /-- The opcode is not Mov, Add, Sub or Syscall (R113). -/
  | unimplementedOpcode (opc : BitVec 8)
  /-- The operand count is not the opcode's arity (R114). -/
  | wrongArity (nops : BitVec 4)
  /-- The destination is an immediate (R115). -/
  | immediateDestination
  /-- Both operands are memory (R115). -/
  | memoryToMemory
  deriving DecidableEq, Repr

/-! The fields of the word (R81) and of a slot (R82). -/

def wordOpc (w : W96) : BitVec 8 := w.extractLsb' 88 8
def wordNops (w : W96) : BitVec 4 := w.extractLsb' 84 4
def wordRsv (w : W96) : BitVec 4 := w.extractLsb' 80 4
def wordSlot0 (w : W96) : BitVec 40 := w.extractLsb' 40 40
def wordSlot1 (w : W96) : BitVec 40 := w.extractLsb' 0 40

def slotKind (b : BitVec 40) : BitVec 3 := b.extractLsb' 37 3
def slotWt (b : BitVec 40) : BitVec 2 := b.extractLsb' 35 2
def slotSrsv (b : BitVec 40) : BitVec 3 := b.extractLsb' 32 3
def slotPay (b : BitVec 40) : BitVec 32 := b.extractLsb' 0 32

/-! The operand kinds of R82; kind 0 is a slot without operand, 3 and 5 to 7 are reserved. -/

def kindReg : BitVec 3 := 1
def kindMem : BitVec 3 := 2
def kindImm : BitVec 3 := 4

/-- The opcode numbers (R83). -/
def opcMov : BitVec 8 := 1
def opcAdd : BitVec 8 := 2
def opcSub : BitVec 8 := 3
def opcSyscall : BitVec 8 := 4

/-- The width of an immediate's tag, for the three defined tags (R82, R85). -/
def widthOfTag (t : BitVec 2) : Width :=
  match t.toNat with
  | 0 => .byte
  | 1 => .word
  | _ => .dword

/-- The tag of a width (R82). -/
def tagOfWidth : Width → BitVec 2
  | .byte => 0
  | .word => 1
  | .dword => 2

/-- A slot that holds an operand is well-formed (R87 item 2). -/
def operandSlotOk (b : BitVec 40) : Bool :=
  slotSrsv b == 0 &&
    (if slotKind b == kindReg then slotWt b == 0 && decide ((slotPay b).toNat < 8)
     else if slotKind b == kindMem then slotWt b == 0 && decide ((slotPay b).toNat < 65536)
     else if slotKind b == kindImm then
       slotWt b != 3 && decide ((slotPay b).toNat < 2 ^ (widthOfTag (slotWt b)).bits)
     else false)

/-- Slot `i` of a word with operand count `nops`: an operand below the count, all zero from the count on (R87 items 2, 3). -/
def slotOk (nops : BitVec 4) (i : Nat) (b : BitVec 40) : Bool :=
  if i < nops.toNat then operandSlotOk b else b == 0

/-- A well-formed word (R87). -/
def wordOk (w : W96) : Bool :=
  wordRsv w == 0 && slotOk (wordNops w) 0 (wordSlot0 w) && slotOk (wordNops w) 1 (wordSlot1 w)

/-- The operand a well-formed slot stands for (R85). -/
def operandOf (b : BitVec 40) : Operand :=
  if slotKind b == kindReg then .reg (RegView.ofId ((slotPay b).setWidth 3))
  else if slotKind b == kindMem then .mem ((slotPay b).setWidth 16)
  else .imm (Data.ofValue (widthOfTag (slotWt b)) (slotPay b))

/-- Stage 0 of R112: the abstract instruction of a well-formed word (R86, R88); none of an ill-formed one. -/
def decodeRaw (w : W96) : Option RawInstr :=
  if wordOk w then
    some { opc := wordOpc w, nops := wordNops w,
           ops := [operandOf (wordSlot0 w), operandOf (wordSlot1 w)].take (wordNops w).toNat }
  else none

/-- The arity of an implemented opcode, none of another (R83, R89). -/
def arityOf (opc : BitVec 8) : Option (BitVec 4) :=
  if opc = opcMov ∨ opc = opcAdd ∨ opc = opcSub then some 2
  else if opc = opcSyscall then some 0
  else none

/-- The instruction of a two-operand opcode and a legal pair, by opcode (R91). -/
def formOf (opc : BitVec 8) (mov add sub : Instr) : Instr :=
  if opc = opcMov then mov else if opc = opcAdd then add else sub

/-- Stage 3 of R112 for Mov, Add and Sub: the operand-kind pair (R90, R115). -/
def selectPair (opc : BitVec 8) : Operand → Operand → Except DecodeReject Instr
  | .imm _, _ => .error .immediateDestination
  | .mem _, .mem _ => .error .memoryToMemory
  | .reg d, .reg s => .ok (formOf opc (.movRR d s) (.addRR d s) (.subRR d s))
  | .reg d, .mem m => .ok (formOf opc (.movRM d m) (.addRM d m) (.subRM d m))
  | .reg d, .imm v => .ok (formOf opc (.movRI d v) (.addRI d v) (.subRI d v))
  | .mem m, .reg s => .ok (formOf opc (.movMR m s) (.addMR m s) (.subMR m s))
  | .mem m, .imm v => .ok (formOf opc (.movMI m v) (.addMI m v) (.subMI m v))

/-- Stages 1 to 3 of R112: opcode (R113), arity (R114), addressing mode (R115). An operand list that does not match its
count, which no word decodes to, is a wrong arity too. -/
def selectForm (r : RawInstr) : Except DecodeReject Instr :=
  match arityOf r.opc with
  | none => .error (.unimplementedOpcode r.opc)
  | some n =>
    if r.nops = n then
      match r.ops with
      | [] => if r.opc = opcSyscall then .ok .syscall else .error (.wrongArity r.nops)
      | [d, s] => if r.opc = opcSyscall then .error (.wrongArity r.nops) else selectPair r.opc d s
      | _ => .error (.wrongArity r.nops)
    else .error (.wrongArity r.nops)

/-- The decoder: stages 0 to 3 of R112. -/
def decodeWord (w : W96) : Except DecodeReject Instr :=
  match decodeRaw w with
  | none => .error .illegalEncoding
  | some r => selectForm r

/-- What the decoder reads from the bits `w` of an instruction, bit 0 the least significant of its one word; the bits from
`nbits` up are zero (30_encoding R81, R93). -/
def decodeTableWord (nbits w : Nat) : Option Instr :=
  match decodeWord (BitVec.ofNat 96 (w % 2 ^ nbits)) with
  | .ok i => some i
  | .error _ => none

/-! The encoder (R88). -/

/-- A slot from its fields (R82). -/
def makeSlot (kind : BitVec 3) (wt : BitVec 2) (pay : BitVec 32) : BitVec 40 := kind ++ wt ++ (0#3) ++ pay

/-- The slot of an operand (R82). -/
def encodeOperand : Operand → BitVec 40
  | .reg r => makeSlot kindReg 0 (r.id.setWidth 32)
  | .mem s => makeSlot kindMem 0 (s.setWidth 32)
  | .imm d => makeSlot kindImm (tagOfWidth d.width) d.value

/-- The slot of an operand that may be absent (R82, R87 item 3). -/
def encodeSlot : Option Operand → BitVec 40
  | none => 0
  | some o => encodeOperand o

/-- The word of an abstract instruction: its count and its first two operands (R88). -/
def encodeRaw (r : RawInstr) : W96 :=
  r.opc ++ r.nops ++ (0#4) ++ encodeSlot r.ops[0]? ++ encodeSlot r.ops[1]?

/-- The abstract instruction of a form (R91). -/
def Instr.toRaw : Instr → RawInstr
  | .movRR d s => ⟨opcMov, 2, [.reg d, .reg s]⟩
  | .movRM d m => ⟨opcMov, 2, [.reg d, .mem m]⟩
  | .movRI d v => ⟨opcMov, 2, [.reg d, .imm v]⟩
  | .movMR m s => ⟨opcMov, 2, [.mem m, .reg s]⟩
  | .movMI m v => ⟨opcMov, 2, [.mem m, .imm v]⟩
  | .addRR d s => ⟨opcAdd, 2, [.reg d, .reg s]⟩
  | .addRM d m => ⟨opcAdd, 2, [.reg d, .mem m]⟩
  | .addRI d v => ⟨opcAdd, 2, [.reg d, .imm v]⟩
  | .addMR m s => ⟨opcAdd, 2, [.mem m, .reg s]⟩
  | .addMI m v => ⟨opcAdd, 2, [.mem m, .imm v]⟩
  | .subRR d s => ⟨opcSub, 2, [.reg d, .reg s]⟩
  | .subRM d m => ⟨opcSub, 2, [.reg d, .mem m]⟩
  | .subRI d v => ⟨opcSub, 2, [.reg d, .imm v]⟩
  | .subMR m s => ⟨opcSub, 2, [.mem m, .reg s]⟩
  | .subMI m v => ⟨opcSub, 2, [.mem m, .imm v]⟩
  | .syscall => ⟨opcSyscall, 0, []⟩

/-- The word of an instruction. -/
def encode (i : Instr) : W96 := encodeRaw i.toRaw

/-- One row of the opcode map: the form's name in spec/opcode_table.json, and the `match` and `mask` of R91. -/
structure TableRow where
  mnemonic : String
  pattern : W96
  mask : W96
  deriving DecidableEq, Repr

/-- The row of an instruction, its masks as R91 lists them. -/
def rowOf : Instr → TableRow
  | .movRR _ _ => ⟨"Mov_r__r", 0x012020000000002000000000#96, 0xFFFFFFFFFFFFF8FFFFFFFFF8#96⟩
  | .movRM _ _ => ⟨"Mov_r___m", 0x012020000000004000000000#96, 0xFFFFFFFFFFFFF8FFFFFF0000#96⟩
  | .movRI _ _ => ⟨"Mov_r__imm", 0x012020000000008000000000#96, 0xFFFFFFFFFFFFF8E700000000#96⟩
  | .movMR _ _ => ⟨"Mov__m___r", 0x012040000000002000000000#96, 0xFFFFFFFFFF0000FFFFFFFFF8#96⟩
  | .movMI _ _ => ⟨"Mov__m___imm", 0x012040000000008000000000#96, 0xFFFFFFFFFF0000E700000000#96⟩
  | .addRR _ _ => ⟨"Add_r__r", 0x022020000000002000000000#96, 0xFFFFFFFFFFFFF8FFFFFFFFF8#96⟩
  | .addRM _ _ => ⟨"Add_r___m", 0x022020000000004000000000#96, 0xFFFFFFFFFFFFF8FFFFFF0000#96⟩
  | .addRI _ _ => ⟨"Add_r__imm", 0x022020000000008000000000#96, 0xFFFFFFFFFFFFF8E700000000#96⟩
  | .addMR _ _ => ⟨"Add__m___r", 0x022040000000002000000000#96, 0xFFFFFFFFFF0000FFFFFFFFF8#96⟩
  | .addMI _ _ => ⟨"Add__m___imm", 0x022040000000008000000000#96, 0xFFFFFFFFFF0000E700000000#96⟩
  | .subRR _ _ => ⟨"Sub_r__r", 0x032020000000002000000000#96, 0xFFFFFFFFFFFFF8FFFFFFFFF8#96⟩
  | .subRM _ _ => ⟨"Sub_r___m", 0x032020000000004000000000#96, 0xFFFFFFFFFFFFF8FFFFFF0000#96⟩
  | .subRI _ _ => ⟨"Sub_r__imm", 0x032020000000008000000000#96, 0xFFFFFFFFFFFFF8E700000000#96⟩
  | .subMR _ _ => ⟨"Sub__m___r", 0x032040000000002000000000#96, 0xFFFFFFFFFF0000FFFFFFFFF8#96⟩
  | .subMI _ _ => ⟨"Sub__m___imm", 0x032040000000008000000000#96, 0xFFFFFFFFFF0000E700000000#96⟩
  | .syscall => ⟨"Syscall", 0x040000000000000000000000#96, 0xFFFFFFFFFFFFFFFFFFFFFFFF#96⟩

end Sys2Proof
end

