-- ==== Sys2Proof/Machine/Ops.lean ====
section
/-! DEFINITION. The named operations over registers and memory, and taking a fatal error. There is no return from one:
Halted(Fault) is terminal and the hardware has no return instruction (60_exceptions R193). -/

namespace Sys2Proof.Machine

/-! ## Registers (10_state R11 to R17) -/

/-- The lanes of a family. -/
def GprFile.lanes (g : GprFile) : Family → Lanes
  | .A => g.A
  | .B => g.B
  | .C => g.C
  | .D => g.D

/-- The file with one family's lanes replaced. -/
def GprFile.setLanes (g : GprFile) (f : Family) (l : Lanes) : GprFile :=
  match f with
  | .A => { g with A := l }
  | .B => { g with B := l }
  | .C => { g with C := l }
  | .D => { g with D := l }

/-- Lane `k` of a family (10_state R11). -/
def Lanes.lane (l : Lanes) (k : Fin 4) : Byte :=
  match k with
  | 0 => l.b0
  | 1 => l.b1
  | 2 => l.b2
  | 3 => l.b3

/-- The value read through a view of width `w` (10_state R13). -/
def Lanes.read (l : Lanes) (w : Width) : BitVec 32 :=
  match w with
  | .byte => l.b0.setWidth 32
  | .word => (l.b1 ++ l.b0).setWidth 32
  | .dword => l.b3 ++ l.b2 ++ l.b1 ++ l.b0

/-- Lanes 0 to `bytes(w)` - 1 take the bytes of `v`, the others keep their value (10_state R15). -/
def Lanes.writeLow (l : Lanes) (w : Width) (v : BitVec 32) : Lanes :=
  match w with
  | .byte => { l with b0 := v.extractLsb' 0 8 }
  | .word => { l with b0 := v.extractLsb' 0 8, b1 := v.extractLsb' 8 8 }
  | .dword => ⟨v.extractLsb' 0 8, v.extractLsb' 8 8, v.extractLsb' 16 8, v.extractLsb' 24 8⟩

/-- `x[id]`, register read (10_state R13). -/
def GprFile.read (g : GprFile) (r : RegView) : BitVec 32 := (g.lanes r.fam).read r.width

/-- The low `bytes(w)` lanes of the view's family take the bytes of `v` (10_state R15). -/
def GprFile.writeLow (g : GprFile) (r : RegView) (w : Width) (v : BitVec 32) : GprFile :=
  g.setLanes r.fam ((g.lanes r.fam).writeLow w v)

/-- `lane[f][k]` of a state. -/
def State.lane (s : State) (f : Family) (k : Fin 4) : Byte := (s.gpr.lanes f).lane k

/-- `x[id]` of a state (10_state R13). -/
def State.reg (s : State) (r : RegView) : BitVec 32 := s.gpr.read r

/-- The Data value a register yields as a source: `(rw(id), x[id])` (10_state R13, 40_decode R116). -/
def State.regData (s : State) (r : RegView) : Data := Data.ofValue r.width (s.reg r)

/-! ## Events (10_state R33) -/

/-- The diagnostics of a write decided by the width tags: truncating, widening or neither (20_memory R53). -/
def widthDiags (widen : Bool) (dest : Dest) (dw : Width) (d : Data) : List Event :=
  if dw.bytes < d.width.bytes then [.diagTrunc dest (d.value >>> dw.bits)]
  else if d.width.bytes < dw.bytes ∧ widen = true then [.diagWiden dest]
  else []

/-- The diagnostic of an ALU write-back, decided by the bits cut off (40_decode R119). -/
def lossDiags (dest : Dest) (dw : Width) (r : BitVec 32) : List Event :=
  if r >>> dw.bits = 0 then [] else [.diagTrunc dest (r >>> dw.bits)]

/-- `emit E` (00_scope R5). -/
def emit (es : List Event) (s : State) : State := { s with ev := s.ev ++ es }

/-! ## Register writes -/

/-- The lanes of a view are written with the low `bytes(w)` bytes of `v`, the events `es` and REG_SET are emitted. -/
def writeLanes (r : RegView) (w : Width) (v : BitVec 32) (es : List Event) (s : State) : State :=
  { s with gpr := s.gpr.writeLow r w v,
           ev := s.ev ++ es ++ [.regSet r ((s.gpr.writeLow r w v).read r)] }

/-- `x[id] <- D`, register write: the low `min` of the two widths is written (10_state R15 to R17). -/
def setReg (r : RegView) (d : Data) (s : State) : State :=
  writeLanes r (d.width.narrower r.width) d.value (widthDiags s.widenDiag (.reg r) r.width d) s

/-- The plain value copy of a Mov between unrelated registers: every lane of the destination view (41_mov R140). -/
def copyReg (r : RegView) (d : Data) (s : State) : State :=
  writeLanes r r.width d.value (widthDiags s.widenDiag (.reg r) r.width d) s

/-! ## Memory (20_memory R54 to R60) -/

/-- `cell[s]`, or absent. -/
def Memory.cellAt : Memory → Nat → Option MemCell
  | [], _ => none
  | (b, c) :: m, a => if a = b then some c else Memory.cellAt m a

/-- The cell at `a` replaced, or entered in its place in the order of ids. -/
def Memory.put (m : Memory) (a : Nat) (c : MemCell) : Memory :=
  match m with
  | [] => [(a, c)]
  | (b, d) :: m =>
    if a < b then (a, c) :: (b, d) :: m
    else if a = b then (a, c) :: m
    else (b, d) :: Memory.put m a c

/-- The canonical form: ids strictly rising and of 16 bits. No entry equals what an unlisted id reads as, since that is
no cell at all. -/
abbrev Memory.wf (m : Memory) : Prop :=
  m.Pairwise (fun p q => p.1 < q.1) ∧ ∀ p ∈ m, p.1 < 65536

/-- The cell of a declared symbol, or UndeclaredMemoryAccess (20_memory R56). -/
def findCell (op : FaultOperand) (s : SymId) (st : State) : Except Fatal MemCell :=
  match st.mem.cellAt s.toNat with
  | none => .error ⟨.undeclaredMemoryAccess, op, s.setWidth 32⟩
  | some c => .ok c

/-- A cell that may be read: it was written, or is not zero (20_memory R59). -/
abbrev MemCell.readable (c : MemCell) : Prop := c.written = true ∨ c.data.value ≠ 0

/-- The cell of a symbol that may be read: declared, and written or not zero (20_memory R57, R59). -/
def readableCell (op : FaultOperand) (s : SymId) (st : State) : Except Fatal MemCell :=
  match findCell op s st with
  | .error f => .error f
  | .ok c =>
    if c.readable then .ok c
    else .error ⟨.useOfUninitializedMemory, op, s.setWidth 32⟩

/-- `MemRead(s)` (20_memory R57). It changes no state. -/
def memRead (op : FaultOperand) (s : SymId) (st : State) : Except Fatal Data :=
  match readableCell op s st with
  | .error f => .error f
  | .ok c => .ok c.data

/-- A declared cell `c` at `s` takes the value `d`, of its own width, and is marked written; the events `es` and MEM_SET
are emitted. -/
def storeCell (s : SymId) (c : MemCell) (d : Data) (es : List Event) (st : State) : State :=
  { st with mem := st.mem.put s.toNat { c with data := d, written := true },
            ev := st.ev ++ es ++ [.memSet s d.value] }

/-- `MemWrite(s, D)` (20_memory R58). -/
def memWrite (op : FaultOperand) (s : SymId) (d : Data) (st : State) : Except Fatal State :=
  match findCell op s st with
  | .error f => .error f
  | .ok c =>
    .ok (storeCell s c (d.conv c.data.width) (widthDiags st.widenDiag (.sym s) c.data.width d) st)

/-! ## Ending an instruction -/

/-- Fault entry: the record is filled, the index being IP - 1, and the run halts; nothing else changes (60_exceptions R191). -/
def raise (f : Fatal) (s : State) : State :=
  { s with fault := ⟨f.cause, s.ip - 1, f.operand, f.info⟩, st := .halted .fault }

/-- Completion (40_decode R121). -/
def complete (s : State) : State := { s with st := .fetching }

/-- The end of an instruction whose effect is `r`: completion, or the entry of its fatal error in the state `s` before it
(40_decode R120, R121). -/
def finish (r : Except Fatal State) (s : State) : Result :=
  match r with
  | .ok t => .next (complete t)
  | .error f => .next (raise f s)

end Sys2Proof.Machine

namespace Sys2Proof

/-- The fatal error of a word the decoder rejects (40_decode R112 to R115, 60_exceptions R187). -/
def DecodeReject.fatal : DecodeReject → Machine.Fatal
  | .illegalEncoding => ⟨.illegalEncoding, .noOperand, 0⟩
  | .unimplementedOpcode opc => ⟨.unimplementedOpcode, .noOperand, opc.setWidth 32⟩
  | .wrongArity n => ⟨.wrongArity, .noOperand, n.setWidth 32⟩
  | .immediateDestination => ⟨.illegalAddressingMode, .operand0, 0⟩
  | .memoryToMemory => ⟨.illegalAddressingMode, .operand1, 0⟩

end Sys2Proof
end

