-- ==== Sys2Proof/Machine/Operands.lean ====
section
/-! DEFINITION. Operand resolution and write-back: "a separate, reusable step from the opcode's arithmetic/move
semantics" (40_decode_execute R116 to R119), and the common execution of Add and Sub (42_add_sub R155). -/

namespace Sys2Proof.Machine

/-- `SrcData`: the source operand as a Data value (40_decode R116). It changes no state. -/
def srcData (o : Operand) (s : State) : Except Fatal Data :=
  match o with
  | .reg r => .ok (s.regData r)
  | .mem m => memRead .operand1 m s
  | .imm d => .ok d

/-- The destination's native width (40_decode R118): none of an undeclared cell or of an immediate. -/
def nativeWidth (o : Operand) (s : State) : Option Width :=
  match o with
  | .reg r => some r.width
  | .mem m => (s.mem.cellAt m.toNat).map (fun c => c.data.width)
  | .imm _ => none

/-- Stage 4 and 5 of a Mov whose destination is a register: the source's Data is written by the register rule. -/
def movToReg (rd : RegView) (src : Operand) (s : State) : Except Fatal State :=
  match srcData src s with
  | .error f => .error f
  | .ok d => .ok (setReg rd d s)

/-- Stage 4 and 5 of a Mov whose destination is a cell: MemWrite of the source's Data; the cell need only be declared
(40_decode R117). -/
def movToMem (m : SymId) (src : Operand) (s : State) : Except Fatal State :=
  match srcData src s with
  | .error f => .error f
  | .ok d => memWrite .operand0 m d s

/-- A Mov between registers (41_mov R140): the self-move, the related pair, the unrelated pair. -/
def movRegReg (rd rs : RegView) (s : State) : State :=
  if rd = rs then emit [.diagSelfMove rd] s
  else if rd.fam = rs.fam then setReg rd (s.regData rs) s
  else copyReg rd (s.regData rs) s

/-- `WriteResult` to a register: the whole view takes the result's low bytes (40_decode R119). -/
def writeResultReg (rd : RegView) (r : BitVec 32) (s : State) : State :=
  writeLanes rd rd.width r (lossDiags (.reg rd) rd.width r) s

/-- `WriteResult` to the cell `c` of symbol `m`: the whole cell takes the result's low bytes (40_decode R119). -/
def writeResultMem (m : SymId) (c : MemCell) (r : BitVec 32) (s : State) : State :=
  storeCell m c (Data.ofValue c.data.width r) (lossDiags (.sym m) c.data.width r) s

/-- The ALU's fatal cause 6, which no instruction can raise (42_add_sub R153). -/
def aluModeOffFatal : Fatal := ⟨.aluModeOff, .noOperand, 0⟩

/-- The assignment of OF with its event, the last part of 42_add_sub R155. -/
def setOverflowFlag (ovf : Bool) (s : State) : State :=
  { s with flags := s.flags.setOverflow ovf, ev := s.ev ++ overflowEvents ovf }

/-- `operand_fetch`: mode and operands are loaded into the scratch (42_add_sub R150, R155). -/
def loadAlu (mode : AluMode) (dst src : BitVec 32) (s : State) : State := { s with alu := ⟨mode, dst, src⟩ }

/-- Stage 5 of Add and Sub (42_add_sub R155): load the ALU, execute, write the result back by `write`, assign OF. -/
def aluStage (mode : AluMode) (dst src : BitVec 32) (write : BitVec 32 → State → State) (s : State) :
    Except Fatal State :=
  match (loadAlu mode dst src s).alu.execute with
  | none => .error aluModeOffFatal
  | some (r, ovf) => .ok (setOverflowFlag ovf (write r (loadAlu mode dst src s)))

/-- Add or Sub with a register destination: the source is resolved, then `x[rd]` (40_decode R116, R117). -/
def aluToReg (mode : AluMode) (rd : RegView) (src : Operand) (s : State) : Except Fatal State :=
  match srcData src s with
  | .error f => .error f
  | .ok d => aluStage mode (s.reg rd) d.value (writeResultReg rd) s

/-- Add or Sub with a memory destination: the source is resolved, then the cell is read by MemRead (40_decode R116, R117). -/
def aluToMem (mode : AluMode) (m : SymId) (src : Operand) (s : State) : Except Fatal State :=
  match srcData src s with
  | .error f => .error f
  | .ok d =>
    match readableCell .operand0 m s with
    | .error f => .error f
    | .ok c => aluStage mode c.data.value d.value (writeResultMem m c) s

end Sys2Proof.Machine
end

