-- ==== Sys2Proof/Machine/AddSub.lean ====
section
/-! DEFINITION. The meanings of Add and Sub (42_add_sub R155 to R165). -/

namespace Sys2Proof.Machine

/-- `Add rd, rs` (42_add_sub R156). -/
def execAddRR (rd rs : RegView) (s : State) : Result := finish (aluToReg .add rd (.reg rs) s) s

/-- `Add rd, [m]` (42_add_sub R157). -/
def execAddRM (rd : RegView) (m : SymId) (s : State) : Result := finish (aluToReg .add rd (.mem m) s) s

/-- `Add rd, imm` (42_add_sub R158). -/
def execAddRI (rd : RegView) (d : Data) (s : State) : Result := finish (aluToReg .add rd (.imm d) s) s

/-- `Add [m], rs` (42_add_sub R159). -/
def execAddMR (m : SymId) (rs : RegView) (s : State) : Result := finish (aluToMem .add m (.reg rs) s) s

/-- `Add [m], imm` (42_add_sub R160). -/
def execAddMI (m : SymId) (d : Data) (s : State) : Result := finish (aluToMem .add m (.imm d) s) s

/-- `Sub rd, rs` (42_add_sub R161). -/
def execSubRR (rd rs : RegView) (s : State) : Result := finish (aluToReg .sub rd (.reg rs) s) s

/-- `Sub rd, [m]` (42_add_sub R162). -/
def execSubRM (rd : RegView) (m : SymId) (s : State) : Result := finish (aluToReg .sub rd (.mem m) s) s

/-- `Sub rd, imm` (42_add_sub R163). -/
def execSubRI (rd : RegView) (d : Data) (s : State) : Result := finish (aluToReg .sub rd (.imm d) s) s

/-- `Sub [m], rs` (42_add_sub R164). -/
def execSubMR (m : SymId) (rs : RegView) (s : State) : Result := finish (aluToMem .sub m (.reg rs) s) s

/-- `Sub [m], imm` (42_add_sub R165). -/
def execSubMI (m : SymId) (d : Data) (s : State) : Result := finish (aluToMem .sub m (.imm d) s) s

end Sys2Proof.Machine
end

