-- ==== Sys2Proof/Machine/Mov.lean ====
section
/-! DEFINITION. The meanings of Mov (41_mov R140 to R145). -/

namespace Sys2Proof.Machine

/-- `Mov rd, rs` (41_mov R140). -/
def execMovRR (rd rs : RegView) (s : State) : Result := finish (.ok (movRegReg rd rs s)) s

/-- `Mov rd, [m]` (41_mov R141). -/
def execMovRM (rd : RegView) (m : SymId) (s : State) : Result := finish (movToReg rd (.mem m) s) s

/-- `Mov rd, imm` (41_mov R142). -/
def execMovRI (rd : RegView) (d : Data) (s : State) : Result := finish (movToReg rd (.imm d) s) s

/-- `Mov [m], rs` (41_mov R143). -/
def execMovMR (m : SymId) (rs : RegView) (s : State) : Result := finish (movToMem m (.reg rs) s) s

/-- `Mov [m], imm` (41_mov R144). -/
def execMovMI (m : SymId) (d : Data) (s : State) : Result := finish (movToMem m (.imm d) s) s

end Sys2Proof.Machine
end

