-- ==== Sys2Proof/Config.lean ====
section
/-! DEFINITION. What the machine leaves to its surroundings: the bound on a program's length and the one free value,
what the host's `io_read` returns. -/

namespace Sys2Proof

/-- The largest number of instructions a program may have (00_scope R4, the spec's decision D13). -/
def Config.maxInstr : Nat := 65535

/-- The value the host function `io_read(fd, count, s, width)` returns at its `call`-th call (43_syscall R172, R175).
A free value: the spec calls it an OPEN argument of the model and says only that it fits the cell, so nothing may be
proved of it. The machine takes the low `width` bits, which lets every value that fits come back (log 5). -/
opaque Config.ioRead (call : Nat) (fd count : BitVec 32) (s : SymId) (w : Width) : BitVec 32

end Sys2Proof
end

