-- ==== Sys2Proof/Machine/Syscall.lean ====
section
/-! DEFINITION. The meaning of Syscall and its numbers (43_syscall R170 to R175). -/

namespace Sys2Proof.Machine

/-- The syscall numbers, taken as the source writes them (43_syscall R170; 93 U14). -/
def sysRead : BitVec 32 := 1
def sysWrite : BitVec 32 := 2
def sysExit : BitVec 32 := 60

/-- The buffer argument: the symbol id in DX (43_syscall R170, R172). -/
def syscallBuffer (s : State) : SymId := (s.reg .dx).setWidth 16

/-- Number 60, terminate: the status is BX (43_syscall R171). -/
def syscallExit (s : State) : Result :=
  .next { s with exitStatus := s.reg .bx, st := .halted .exit }

/-- What `io_read` gives the cell of width `w` at this call: any value that fits (43_syscall R172; log 5). -/
def ioReadData (w : Width) (s : State) : Data :=
  Data.ofValue w (Config.ioRead s.ioCalls (s.reg .bx) (s.reg .cx) (syscallBuffer s) w)

/-- Number 1, read-from-input: the declared buffer cell takes what `io_read` returns (43_syscall R172). -/
def syscallRead (s : State) : Except Fatal State :=
  match findCell .noOperand (syscallBuffer s) s with
  | .error f => .error f
  | .ok c =>
    memWrite .noOperand (syscallBuffer s) (ioReadData c.data.width s) { s with ioCalls := s.ioCalls + 1 }

/-- Number 2, write-to-output: the buffer cell is read and handed to `io_write` (43_syscall R173; log 6). -/
def syscallWrite (s : State) : Except Fatal State :=
  match memRead .noOperand (syscallBuffer s) s with
  | .error f => .error f
  | .ok d => .ok (emit [.ioWrite (s.reg .bx) (s.reg .cx) (syscallBuffer s) d] s)

/-- Any other number: an event and nothing else (43_syscall R174). -/
def syscallUnknown (s : State) : State := emit [.errUnknownSyscall (s.reg .ax)] s

/-- `Syscall` (43_syscall R170). -/
def execSyscall (s : State) : Result :=
  if s.reg .ax = sysExit then syscallExit s
  else if s.reg .ax = sysRead then finish (syscallRead s) s
  else if s.reg .ax = sysWrite then finish (syscallWrite s) s
  else finish (.ok (syscallUnknown s)) s

end Sys2Proof.Machine
end

