-- ==== Sys2Proof/Machine/Dispatch.lean ====
section
/-! DEFINITION. One arm per instruction: the call of its meaning. -/

namespace Sys2Proof.Machine

def exec (i : Instr) (s : State) : Host.Outcome State Fault Refusal :=
  match i with
  | .movRR rd rs => Sys2Proof.Machine.execMovRR rd rs s
  | .movRM rd m => Sys2Proof.Machine.execMovRM rd m s
  | .movRI rd d => Sys2Proof.Machine.execMovRI rd d s
  | .movMR m rs => Sys2Proof.Machine.execMovMR m rs s
  | .movMI m d => Sys2Proof.Machine.execMovMI m d s
  | .addRR rd rs => Sys2Proof.Machine.execAddRR rd rs s
  | .addRM rd m => Sys2Proof.Machine.execAddRM rd m s
  | .addRI rd d => Sys2Proof.Machine.execAddRI rd d s
  | .addMR m rs => Sys2Proof.Machine.execAddMR m rs s
  | .addMI m d => Sys2Proof.Machine.execAddMI m d s
  | .subRR rd rs => Sys2Proof.Machine.execSubRR rd rs s
  | .subRM rd m => Sys2Proof.Machine.execSubRM rd m s
  | .subRI rd d => Sys2Proof.Machine.execSubRI rd d s
  | .subMR m rs => Sys2Proof.Machine.execSubMR m rs s
  | .subMI m d => Sys2Proof.Machine.execSubMI m d s
  | .syscall => Sys2Proof.Machine.execSyscall s

end Sys2Proof.Machine
end

