-- ==== Sys2Proof/Machine/Cycle.lean ====
section
/-! DEFINITION. The run loop's halves: the `run` request, fetch, and decode with execute (40_decode_execute R110 to R112,
R121 to R123). -/

namespace Sys2Proof.Machine

/-- The host's `run` request: Idle becomes Fetching; in any other state it is ignored (40_decode R110). -/
def runRequest (s : State) : State :=
  match s.st with
  | .idle => { s with st := .fetching }
  | _ => s

/-- The state after `w` was fetched: IP is incremented before decode (40_decode R111). -/
def afterFetch (w : W96) (s : State) : State := { s with ip := s.ip + 1, st := .decoding (wordOpc w) }

/-- Fetch, in state Fetching: IP is tested against NINSTR and incremented before decode (40_decode R111). -/
def fetch (s : State) : Result :=
  if Config.maxInstr < s.code.length then .fault .programTooLong
  else if s.ip.toNat = s.code.length then .next { s with st := .halted .endOfCode }
  else
    match s.code[s.ip.toNat]? with
    | none => .fault .fetchBeyondCode
    | some w => .next (afterFetch w s)

/-- The word a state Decoding(opc) has fetched: the one at IP - 1, of that opcode (40_decode R111). -/
def fetchedWord (opc : BitVec 8) (s : State) : Option W96 :=
  if s.ip = 0 then none
  else (s.code[s.ip.toNat - 1]?).filter (fun w => wordOpc w == opc)

/-- Decode and execute a fetched word (40_decode R112): its meaning, or the entry of the decoder's fatal error. -/
def executeWord (w : W96) (s : State) : Result :=
  match decodeWord w with
  | .ok i => exec i s
  | .error e => .next (raise e.fatal s)

/-- The second half of an instruction, in state Decoding(opc) (40_decode R112). -/
def decodeExecute (opc : BitVec 8) (s : State) : Result :=
  match fetchedWord opc s with
  | none => .fault .nothingFetched
  | some w => executeWord w s

/-- One whole instruction, from Fetching: the two halves taken together (40_decode R123). -/
def fetchExecute (s : State) : Result :=
  match fetch s with
  | .next t =>
    match t.st with
    | .decoding opc => decodeExecute opc t
    | _ => .next t
  | o => o

/-- The program with `w` at index `k`, empty words before it where it was shorter. -/
def placeWord (k : Nat) (w : W96) (code : List W96) : List W96 :=
  if k < code.length then code.set k w
  else code ++ List.replicate (k - code.length) 0 ++ [w]

end Sys2Proof.Machine
end

