-- ==== Sys2Proof/Machine/Step.lean ====
section
/-! DEFINITION. One step of the machine, and the state in which it runs a given word next. -/

namespace Sys2Proof.Machine

/-- One step: in Idle the host's `run` request (40_decode R110; log 3); in Fetching one whole instruction or the end of
the run (R111, R123; log 1); in Decoding the second half of an instruction (R112); in Halted none (R122; log 2). -/
def step (s : State) : Host.Outcome State Fault Refusal :=
  match s.st with
  | .idle => .next (runRequest s)
  | .fetching => fetchExecute s
  | .decoding opc => decodeExecute opc s
  | .halted _ => .fault .alreadyHalted

/-- The state with the word `w` loaded where the next fetch reads, and the `run` request made: it stands for the load of
a program from outside (70_reset R212, R213; log 4). -/
def State.withFetchWord (s : State) (nbits w : Nat) : State :=
  { s with code := placeWord s.ip.toNat (BitVec.ofNat 96 (w % 2 ^ nbits)) s.code, st := .fetching }

end Sys2Proof.Machine
end

