-- ==== Sys2Proof/Machine/Loader.lean ====
section
/-! DEFINITION. Construction of a machine with a program: the loader's input and the state it gives (70_reset R210 to R213). -/

namespace Sys2Proof.Machine

/-- The loader's input: the data section (label, initial Data), the bss section (label, width), the instruction list and
the parameter WIDEN_DIAG (70_reset R213, 00_scope R4). -/
structure Program where
  data      : List (SymId × Data)
  bss       : List (SymId × Width)
  code      : List W96
  widenDiag : Bool
  deriving DecidableEq, Repr

/-- The cell of a declaration in the data section. -/
def dataCell (d : Data) : MemCell := ⟨.data, d, false⟩

/-- The cell of a declaration in the bss section: zero of its width (20_memory R60). -/
def bssCell (w : Width) : MemCell := ⟨.bss, Data.ofValue w 0, false⟩

/-- The symbol table of a list of declarations; of two for one id the first stands (a program has none, 20_memory R55). -/
def declare : List (SymId × MemCell) → Memory
  | [] => []
  | (a, c) :: ds => (declare ds).put a.toNat c

/-- Every declaration of a program. -/
def Program.declarations (p : Program) : List (SymId × MemCell) :=
  p.data.map (fun x => (x.1, dataCell x.2)) ++ p.bss.map (fun x => (x.1, bssCell x.2))

/-- The constructed machine: reset, with the program's cells and code (10_state R34, 70_reset R213). -/
def construct (p : Program) : State :=
  { State.reset with mem := declare p.declarations, code := p.code, widenDiag := p.widenDiag }

/-- What must be true of a program before `run`: its length, its words well-formed, each label declared once
(70_reset R212, 20_memory R55). -/
abbrev Program.valid (p : Program) : Prop :=
  p.code.length ≤ Config.maxInstr ∧ (∀ w ∈ p.code, wordOk w = true) ∧
    (p.declarations.map (fun x => x.1)).Nodup

end Sys2Proof.Machine
end

