-- ==== Sys2Proof/Safety.lean ====
section
/-! DEFINITION. The terms claims are stated in: the invariant of a run, a safe run, and what two states have in common. -/

namespace Sys2Proof.Machine

/-- What is meaningful in each run state (10_state R22, R28 to R30; 70_reset R217; 60_exceptions R191). -/
def State.runOk (s : State) : Prop :=
  match s.st with
  | .idle => s.ip = 0 ∧ s.fault = .clear ∧ s.exitStatus = 0
  | .fetching => s.fault = .clear ∧ s.exitStatus = 0
  | .decoding opc => s.fault = .clear ∧ s.exitStatus = 0 ∧ ∃ w, fetchedWord opc s = some w
  | .halted .endOfCode => s.ip.toNat = s.code.length ∧ s.fault = .clear ∧ s.exitStatus = 0
  | .halted .exit => 0 < s.ip.toNat ∧ s.fault = .clear
  | .halted .fault => s.fault.cause ≠ .none ∧ s.fault.index.toNat + 1 = s.ip.toNat ∧ s.exitStatus = 0

/-- The invariant of a run: memory in its canonical form, a program of at most 65535 words, 0 ≤ IP ≤ NINSTR, and the run
state with its records (20_memory R54; decision D13; 10_state R22; 70_reset R217). -/
def State.Inv (s : State) : Prop :=
  s.mem.wf ∧ s.code.length ≤ Config.maxInstr ∧ s.ip.toNat ≤ s.code.length ∧ s.runOk

/-- The run was ended by a fatal error (60_exceptions R180). -/
def State.faulted (s : State) : Prop := s.st = .halted .fault

/-- The run is over (70_reset R217). -/
def State.isHalted (s : State) : Prop := ∃ r, s.st = .halted r

/-- A safe run of `k` steps: no state it reaches has been ended by a fatal error. -/
def SafeRun (k : Nat) (s : State) : Prop :=
  ∀ j ≤ k, ∀ t, core.run j s = .next t → ¬ t.faulted

/-- The parts of a state that only the trace, its parameter and the ALU scratch differ in are set to fixed values. -/
def State.eraseHidden (s : State) : State :=
  { s with ev := [], widenDiag := false, alu := ⟨.off, 0, 0⟩ }

/-- What a program's loader fixes for each symbol: whether it is declared, where, and how wide (10_state R36). -/
def State.declaration (s : State) (a : SymId) : Option (Section × Width) :=
  (s.mem.cellAt a.toNat).map (fun c => (c.sect, c.data.width))

/-- An outcome with its next state changed by `f`. -/
def mapNext (f : State → State) : Result → Result
  | .next s => .next (f s)
  | .fault r => .fault r
  | .refused r => .refused r

/-- Lanes 0 to `bytes(w)` - 1 of the view's family hold the bytes of `v`, and EVERY other lane of every family what it
held (10_state R15, R18). -/
def LanesWritten (r : RegView) (w : Width) (v : BitVec 32) (s t : State) : Prop :=
  ∀ f k, t.lane f k = if f = r.fam ∧ k.val < w.bytes then v.extractLsb' (8 * k.val) 8 else s.lane f k

/-- The cell of `m` is `c`, and every other id reads as it did (20_memory R57). -/
def OnlyCellIs (m : SymId) (c : MemCell) (s t : State) : Prop :=
  t.mem.cellAt m.toNat = some c ∧ ∀ a, a ≠ m.toNat → t.mem.cellAt a = s.mem.cellAt a

/-- The instruction is an Add or a Sub. -/
def isAddOrSub : Instr → Bool
  | .addRR _ _ | .addRM _ _ | .addRI _ _ | .addMR _ _ | .addMI _ _ => true
  | .subRR _ _ | .subRM _ _ | .subRI _ _ | .subMR _ _ | .subMI _ _ => true
  | .movRR _ _ | .movRM _ _ | .movRI _ _ | .movMR _ _ | .movMI _ _ | .syscall => false

/-- A Mov to a register of a Data value by the register rule: completion, the lanes written, the events, and nothing else
changed (10_state R15, 41_mov R141, R142). -/
def MovesToRegister (rd : RegView) (d : Data) (s : State) (o : Result) : Prop :=
  ∃ t, o = .next t ∧
    t = { s with gpr := t.gpr,
                 ev := s.ev ++ widthDiags s.widenDiag (.reg rd) rd.width d ++ [.regSet rd (t.reg rd)],
                 st := .fetching } ∧
    LanesWritten rd (d.width.narrower rd.width) d.value s t

/-- A Mov to the declared cell `c` of `m` of a Data value: completion, the whole cell written at its own width, the
events, and nothing else changed (20_memory R58, 41_mov R143, R144). -/
def MovesToCell (m : SymId) (c : MemCell) (d : Data) (s : State) (o : Result) : Prop :=
  ∃ t, o = .next t ∧
    t = { s with mem := t.mem,
                 ev := s.ev ++ widthDiags s.widenDiag (.sym m) c.data.width d ++
                   [.memSet m (d.conv c.data.width).value],
                 st := .fetching } ∧
    OnlyCellIs m ⟨c.sect, d.conv c.data.width, true⟩ s t

/-- An ALU operation `mode` with operands the register `rd` and `v`, result `r` and overflow `ovf`, completed: the whole
view written, OF assigned and no other flag changed, the events, the scratch, and nothing else changed (42_add_sub R155). -/
def AluToRegister (mode : AluMode) (rd : RegView) (v r : BitVec 32) (ovf : Bool) (s : State) (o : Result) : Prop :=
  ∃ t, o = .next t ∧
    t = { s with gpr := t.gpr, flags := { s.flags with OF := ovf }, alu := ⟨mode, s.reg rd, v⟩,
                 ev := s.ev ++ lossDiags (.reg rd) rd.width r ++ [.regSet rd (t.reg rd)] ++
                   (if ovf then [.ofSet] else []),
                 st := .fetching } ∧
    LanesWritten rd rd.width r s t ∧ t.reg rd = (Data.ofValue rd.width r).value

/-- The same with the cell `c` of `m` as destination: the whole cell written at its own width. -/
def AluToCell (mode : AluMode) (m : SymId) (c : MemCell) (v r : BitVec 32) (ovf : Bool) (s : State) (o : Result) :
    Prop :=
  ∃ t, o = .next t ∧
    t = { s with mem := t.mem, flags := { s.flags with OF := ovf }, alu := ⟨mode, c.data.value, v⟩,
                 ev := s.ev ++ lossDiags (.sym m) c.data.width r ++
                   [.memSet m (Data.ofValue c.data.width r).value] ++ (if ovf then [.ofSet] else []),
                 st := .fetching } ∧
    OnlyCellIs m ⟨c.sect, Data.ofValue c.data.width r, true⟩ s t

end Sys2Proof.Machine
end

