-- ==== Sys2Proof/Certificates/Slice0/Obligations.lean ====
section
/-! DEFINITION. The statements for the provers. Basis, rules and titles stand in OBLIGATIONS.json. A docstring says where
a statement rests on a decision the spec marks as its own (D<n>) or on a choice of the model (log <n>). -/

open Sys2Proof Sys2Proof.Machine

/-! ## Encoding -/

/-- Words written out from 30_encoding R81 to R84 and R91 decode to the forms they stand for. The encoding is the spec's
decision D2 to D5. -/
def Obligations.SampleWordsDecode : Prop :=
  decodeWord 0x012020000000062000000000#96 = .ok (.movRR .ecx .ax) ∧
    decodeWord 0x012040000000012000000002#96 = .ok (.movMR 1 .cx) ∧
    decodeWord 0x0120200000000790FFFFFFFF#96 = .ok (.movRI .edx (.dword 0xFFFFFFFF)) ∧
    decodeWord 0x022020000000004000000000#96 = .ok (.addRM .ax 0) ∧
    decodeWord 0x032040000000008800000100#96 = .ok (.subMI 0 (.word 0x100)) ∧
    decodeWord 0x040000000000000000000000#96 = .ok .syscall

/-- `decode(encode(i)) = i` for every instruction with every operand (30_encoding R88; decision D2). -/
def Obligations.EncodeThenDecode : Prop := ∀ i : Instr, decodeWord (encode i) = .ok i

/-- A word decodes to an instruction only if it is that instruction's encoding: no word has two meanings and none is
spelled twice (30_encoding R88; decision D2). -/
def Obligations.DecodedWordIsItsEncoding : Prop :=
  ∀ (w : W96) (i : Instr), decodeWord w = .ok i → encode i = w

/-- On abstract instructions: `decode(encode(r)) = r` for at most two operands, and `encode(decode(w)) = w` for every
well-formed word, ill-formed ones having no abstract instruction (30_encoding R88; decision D2). -/
def Obligations.RawRoundTrip : Prop :=
  (∀ (opc : BitVec 8) (ops : List Operand), ops.length ≤ 2 →
      decodeRaw (encodeRaw ⟨opc, BitVec.ofNat 4 ops.length, ops⟩) = some ⟨opc, BitVec.ofNat 4 ops.length, ops⟩) ∧
    (∀ w : W96, wordOk w = true → ∃ r, decodeRaw w = some r ∧ encodeRaw r = w) ∧
    ∀ w : W96, wordOk w = false → decodeRaw w = none

/-- A well-formed word is a form exactly when it has the form's bits under the form's mask (30_encoding R91; decisions D2, D3). -/
def Obligations.FormIsMaskMatch : Prop :=
  ∀ w : W96, wordOk w = true →
    (∀ i, decodeWord w = .ok i → w &&& (rowOf i).mask = (rowOf i).pattern) ∧
      ∀ i, w &&& (rowOf i).mask = (rowOf i).pattern → ∃ j, decodeWord w = .ok j ∧ rowOf j = rowOf i

/-- What each word outside the 16 forms does, in the order of the decoder's checks: each ends in its own fault entry and
changes nothing else (30_encoding R92, 40_decode R112 to R115, 60_exceptions R190, R191; decisions D2, D10, D11, D16, D22). -/
def Obligations.RejectedWordsFault : Prop :=
  ∀ (w : W96) (s : State),
    (wordOk w = false → executeWord w s = .next (raise ⟨.illegalEncoding, .noOperand, 0⟩ s)) ∧
      (wordOk w = true → wordOpc w ∉ [1#8, 2#8, 3#8, 4#8] →
        executeWord w s = .next (raise ⟨.unimplementedOpcode, .noOperand, (wordOpc w).setWidth 32⟩ s)) ∧
      (wordOk w = true → wordOpc w ∈ [1#8, 2#8, 3#8] → wordNops w ≠ 2 →
        executeWord w s = .next (raise ⟨.wrongArity, .noOperand, (wordNops w).setWidth 32⟩ s)) ∧
      (wordOk w = true → wordOpc w = 4 → wordNops w ≠ 0 →
        executeWord w s = .next (raise ⟨.wrongArity, .noOperand, (wordNops w).setWidth 32⟩ s)) ∧
      (wordOk w = true → wordOpc w ∈ [1#8, 2#8, 3#8] → wordNops w = 2 → slotKind (wordSlot0 w) = 4 →
        executeWord w s = .next (raise ⟨.illegalAddressingMode, .operand0, 0⟩ s)) ∧
      (wordOk w = true → wordOpc w ∈ [1#8, 2#8, 3#8] → wordNops w = 2 → slotKind (wordSlot0 w) = 2 →
        slotKind (wordSlot1 w) = 2 → executeWord w s = .next (raise ⟨.illegalAddressingMode, .operand1, 0⟩ s))

/-- A well-formed word of an unimplemented opcode raises UnimplementedOpcode with fault.operand = 3 and fault.info = opc
(40_decode R113). -/
def Obligations.UnimplementedOpcodeIsFatal : Prop :=
  ∀ (w : W96) (s : State), wordOk w = true → wordOpc w ∉ [1#8, 2#8, 3#8, 4#8] →
    ∃ t, executeWord w s = .next t ∧ t.st = .halted .fault ∧ t.fault.cause = .unimplementedOpcode ∧
      t.fault.operand.code = 3 ∧ t.fault.info = (wordOpc w).setWidth 32

/-! ## Registers -/

/-- Register read: the two views of each family by lanes, lane 0 the least significant, and the Data value a register
yields as a source (10_state R13). -/
def Obligations.RegisterReadIsItsLanes : Prop :=
  ∀ (s : State) (f : Family),
    s.reg f.view16 = (s.lane f 1 ++ s.lane f 0).setWidth 32 ∧
      s.reg f.view32 = s.lane f 3 ++ s.lane f 2 ++ s.lane f 1 ++ s.lane f 0 ∧
      ∀ r : RegView, ∃ d, srcData (.reg r) s = .ok d ∧ d.width = r.width ∧ d.value = s.reg r

/-- A 16-bit view is always the low 16 bits of its 32-bit superset (10_state R14, an inference the spec marks as derived). -/
def Obligations.SixteenBitViewAliasesLowHalf : Prop :=
  ∀ (s : State) (f : Family), s.reg f.view16 = ((s.reg f.view32).extractLsb' 0 16).setWidth 32

/-- Register write through a 32-bit view, width by width: the lanes (10_state R17), the frame over the other families (R15)
and the events (R15, R33; their kinds and order are the spec's decision D17). -/
def Obligations.WriteThroughWideView : Prop :=
  ∀ (s : State) (f : Family) (d : Data) (t : State), t = setReg f.view32 d s →
    (∀ v, d = .byte v → t.lane f 0 = v ∧ t.lane f 1 = s.lane f 1 ∧ t.lane f 2 = s.lane f 2 ∧
        t.lane f 3 = s.lane f 3 ∧
        t.ev = s.ev ++ (if s.widenDiag then [.diagWiden (.reg f.view32)] else []) ++
          [.regSet f.view32 (t.reg f.view32)]) ∧
      (∀ v, d = .word v → t.lane f 0 = v.extractLsb' 0 8 ∧ t.lane f 1 = v.extractLsb' 8 8 ∧
        t.lane f 2 = s.lane f 2 ∧ t.lane f 3 = s.lane f 3 ∧
        t.ev = s.ev ++ (if s.widenDiag then [.diagWiden (.reg f.view32)] else []) ++
          [.regSet f.view32 (t.reg f.view32)]) ∧
      (∀ v, d = .dword v → t.lane f 0 = v.extractLsb' 0 8 ∧ t.lane f 1 = v.extractLsb' 8 8 ∧
        t.lane f 2 = v.extractLsb' 16 8 ∧ t.lane f 3 = v.extractLsb' 24 8 ∧
        t.ev = s.ev ++ [.regSet f.view32 (t.reg f.view32)]) ∧
      ∀ g k, g ≠ f → t.lane g k = s.lane g k

/-- What both views of the family, and the views of the others, read as after a register write (10_state R18, derived
there; its Byte row through a 16-bit view is decision D6). -/
def Obligations.ViewsAfterRegisterWrite : Prop :=
  ∀ (s : State) (f : Family),
    (∀ v : BitVec 16, (setReg f.view16 (.word v) s).reg f.view16 = v.setWidth 32 ∧
        (setReg f.view16 (.word v) s).reg f.view32 = (s.reg f.view32).extractLsb' 16 16 ++ v) ∧
      (∀ v : BitVec 32, (setReg f.view32 (.dword v) s).reg f.view32 = v ∧
        (setReg f.view32 (.dword v) s).reg f.view16 = (v.extractLsb' 0 16).setWidth 32) ∧
      (∀ v : BitVec 32, (setReg f.view16 (.dword v) s).reg f.view16 = (v.extractLsb' 0 16).setWidth 32) ∧
      (∀ (v : BitVec 8) (r : RegView), r.fam = f →
        (setReg r (.byte v) s).reg f.view32 = (s.reg f.view32).extractLsb' 8 24 ++ v) ∧
      ∀ (r q : RegView) (d : Data), q.fam ≠ r.fam → (setReg r d s).reg q = s.reg q

/-- When the diagnostics of a write are emitted and with what: by width tags for a Mov, by the bits lost for an Add or Sub
(20_memory R53, 40_decode R119; decision D17). -/
def Obligations.DiagnosticsByTagAndByLoss : Prop :=
  ∀ (widen : Bool) (dest : Dest) (dw : Width) (d : Data) (r : BitVec 32),
    (dw.bytes < d.width.bytes → widthDiags widen dest dw d = [.diagTrunc dest (d.value >>> dw.bits)]) ∧
      (d.width.bytes < dw.bytes → widthDiags widen dest dw d = if widen then [.diagWiden dest] else []) ∧
      (d.width = dw → widthDiags widen dest dw d = []) ∧
      (r.toNat < 2 ^ dw.bits → lossDiags dest dw r = []) ∧
      (2 ^ dw.bits ≤ r.toNat → lossDiags dest dw r = [.diagTrunc dest (r >>> dw.bits)])

/-! ## Mov -/

/-- `Mov rd, rs` completes in every state: the self-move, the related pair, which changes no lane, and the unrelated
pair, which copies the source's value at the destination's width (41_mov R140, 10_state R19; decisions D7, D17). -/
def Obligations.MovRegisterToRegister : Prop :=
  ∀ (rd rs : RegView) (s : State),
    (rd = rs → exec (.movRR rd rs) s = .next { s with ev := s.ev ++ [.diagSelfMove rd], st := .fetching }) ∧
      (rd ≠ rs → rd.fam = rs.fam →
        exec (.movRR rd rs) s =
          .next { s with
            ev := s.ev ++ widthDiags s.widenDiag (.reg rd) rd.width (s.regData rs) ++ [.regSet rd (s.reg rd)],
            st := .fetching }) ∧
      (rd.fam ≠ rs.fam → ∃ t, exec (.movRR rd rs) s = .next t ∧
        t = { s with gpr := t.gpr,
                     ev := s.ev ++ widthDiags s.widenDiag (.reg rd) rd.width (s.regData rs) ++
                       [.regSet rd (t.reg rd)],
                     st := .fetching } ∧
        LanesWritten rd rd.width (s.reg rs) s t ∧ t.reg rd = (Data.ofValue rd.width (s.reg rs)).value)

/-- `Mov rd, [m]` of a readable cell completes: the lanes its declared width selects are written, and nothing else
changes, the cell included (41_mov R141; events by decision D17, the Byte lane of a 16-bit view by D6). -/
def Obligations.MovLoadsReadableCell : Prop :=
  ∀ (rd : RegView) (m : SymId) (s : State) (c : MemCell), s.mem.cellAt m.toNat = some c → c.readable →
    MovesToRegister rd c.data s (exec (.movRM rd m) s)

/-- `Mov rd, imm` completes in every state: the immediate's own tag selects the lanes (41_mov R142; events by decision
D17, the Byte lane of a 16-bit view by D6). -/
def Obligations.MovLoadsImmediate : Prop :=
  ∀ (rd : RegView) (d : Data) (s : State), MovesToRegister rd d s (exec (.movRI rd d) s)

/-- `Mov [m], rs` and `Mov [m], imm` to a declared cell complete, whether or not it was ever written: the whole cell is
overwritten at its declared width (41_mov R143, R144, 20_memory R58, R59; decisions D9, D17). -/
def Obligations.MovStoresToDeclaredCell : Prop :=
  ∀ (m : SymId) (s : State) (c : MemCell), s.mem.cellAt m.toNat = some c →
    (∀ rs : RegView, MovesToCell m c (s.regData rs) s (exec (.movMR m rs) s)) ∧
      ∀ d : Data, MovesToCell m c d s (exec (.movMI m d) s)

/-- The memory faults of Mov: a load of an undeclared or unwritten zero cell, a store to an undeclared one; each is the
fault entry with nothing written (41_mov R141, R143, R144, 60_exceptions R181, R182, R191; decisions D9, D11). -/
def Obligations.MovMemoryFaults : Prop :=
  ∀ (m : SymId) (s : State),
    (s.mem.cellAt m.toNat = none →
      (∀ rd, exec (.movRM rd m) s = .next (raise ⟨.undeclaredMemoryAccess, .operand1, m.setWidth 32⟩ s)) ∧
        (∀ rs, exec (.movMR m rs) s = .next (raise ⟨.undeclaredMemoryAccess, .operand0, m.setWidth 32⟩ s)) ∧
        ∀ d, exec (.movMI m d) s = .next (raise ⟨.undeclaredMemoryAccess, .operand0, m.setWidth 32⟩ s)) ∧
      ∀ c, s.mem.cellAt m.toNat = some c → c.written = false → c.data.value = 0 →
        ∀ rd, exec (.movRM rd m) s = .next (raise ⟨.useOfUninitializedMemory, .operand1, m.setWidth 32⟩ s)

/-! ## Add and Sub -/

/-- `execute` in mode Add: the sum modulo 2^32 and the carry out of bit 31 (42_add_sub R151). -/
def Obligations.AluAddWrapsWithCarry : Prop :=
  ∀ a b : BitVec 32, ∃ r ovf, Alu.execute ⟨.add, a, b⟩ = some (r, ovf) ∧
    r.toNat = (a.toNat + b.toNat) % 2 ^ 32 ∧ (ovf = true ↔ 2 ^ 32 ≤ a.toNat + b.toNat)

/-- `execute` in mode Sub: destination minus source modulo 2^32 and the borrow (42_add_sub R152). -/
def Obligations.AluSubWrapsWithBorrow : Prop :=
  ∀ a b : BitVec 32, ∃ r ovf, Alu.execute ⟨.sub, a, b⟩ = some (r, ovf) ∧
    (r.toNat : Int) = ((a.toNat : Int) - b.toNat) % 2 ^ 32 ∧ (ovf = true ↔ a.toNat < b.toNat)

/-- Arithmetic laws of the ALU (42_add_sub R154, derived there). -/
def Obligations.AluLaws : Prop :=
  ∀ a b : BitVec 32,
    Alu.execute ⟨.add, a, b⟩ = Alu.execute ⟨.add, b, a⟩ ∧
      (∀ r ovf, Alu.execute ⟨.add, a, b⟩ = some (r, ovf) →
        (ovf = true ↔ r.toNat < a.toNat) ∧ (ovf = true ↔ r.toNat < b.toNat) ∧
          ∃ o, Alu.execute ⟨.sub, r, b⟩ = some (a, o)) ∧
      (∀ r ovf r' ovf', Alu.execute ⟨.sub, a, b⟩ = some (r, ovf) → Alu.execute ⟨.add, a, -b⟩ = some (r', ovf') →
        r = r' ∧ (b ≠ 0 → ovf = !ovf')) ∧
      Alu.execute ⟨.add, a, 0⟩ = some (a, false) ∧ Alu.execute ⟨.sub, a, 0⟩ = some (a, false) ∧
      Alu.execute ⟨.sub, a, a⟩ = some (0, false) ∧ (a ≠ 0 → Alu.execute ⟨.sub, 0, a⟩ = some (-a, true))

/-- Every Add with a register destination completes when its source resolves (42_add_sub R155 to R158, 40_decode R119; OF
by decision D8, events by D17). -/
def Obligations.AddToRegisterResult : Prop :=
  ∀ (rd : RegView) (s : State),
    (∀ rs, AluToRegister .add rd (s.reg rs) (s.reg rd + s.reg rs)
        (decide (2 ^ 32 ≤ (s.reg rd).toNat + (s.reg rs).toNat)) s (exec (.addRR rd rs) s)) ∧
      (∀ m c, s.mem.cellAt m.toNat = some c → c.readable →
        AluToRegister .add rd c.data.value (s.reg rd + c.data.value)
          (decide (2 ^ 32 ≤ (s.reg rd).toNat + c.data.value.toNat)) s (exec (.addRM rd m) s)) ∧
      ∀ d, AluToRegister .add rd d.value (s.reg rd + d.value)
        (decide (2 ^ 32 ≤ (s.reg rd).toNat + d.value.toNat)) s (exec (.addRI rd d) s)

/-- Every Sub with a register destination completes when its source resolves (42_add_sub R155, R161 to R163, 40_decode
R119; OF by decision D8, events by D17). -/
def Obligations.SubFromRegisterResult : Prop :=
  ∀ (rd : RegView) (s : State),
    (∀ rs, AluToRegister .sub rd (s.reg rs) (s.reg rd - s.reg rs)
        (decide ((s.reg rd).toNat < (s.reg rs).toNat)) s (exec (.subRR rd rs) s)) ∧
      (∀ m c, s.mem.cellAt m.toNat = some c → c.readable →
        AluToRegister .sub rd c.data.value (s.reg rd - c.data.value)
          (decide ((s.reg rd).toNat < c.data.value.toNat)) s (exec (.subRM rd m) s)) ∧
      ∀ d, AluToRegister .sub rd d.value (s.reg rd - d.value)
        (decide ((s.reg rd).toNat < d.value.toNat)) s (exec (.subRI rd d) s)

/-- Every Add with a readable cell as destination completes (42_add_sub R155, R159, R160, 40_decode R119; decisions D8, D9, D17). -/
def Obligations.AddToCellResult : Prop :=
  ∀ (m : SymId) (s : State) (c : MemCell), s.mem.cellAt m.toNat = some c → c.readable →
    (∀ rs, AluToCell .add m c (s.reg rs) (c.data.value + s.reg rs)
        (decide (2 ^ 32 ≤ c.data.value.toNat + (s.reg rs).toNat)) s (exec (.addMR m rs) s)) ∧
      ∀ d, AluToCell .add m c d.value (c.data.value + d.value)
        (decide (2 ^ 32 ≤ c.data.value.toNat + d.value.toNat)) s (exec (.addMI m d) s)

/-- Every Sub with a readable cell as destination completes (42_add_sub R155, R164, R165, 40_decode R119; decisions D8, D9, D17). -/
def Obligations.SubFromCellResult : Prop :=
  ∀ (m : SymId) (s : State) (c : MemCell), s.mem.cellAt m.toNat = some c → c.readable →
    (∀ rs, AluToCell .sub m c (s.reg rs) (c.data.value - s.reg rs)
        (decide (c.data.value.toNat < (s.reg rs).toNat)) s (exec (.subMR m rs) s)) ∧
      ∀ d, AluToCell .sub m c d.value (c.data.value - d.value)
        (decide (c.data.value.toNat < d.value.toNat)) s (exec (.subMI m d) s)

/-- The memory faults of Add and Sub: an undeclared or an unwritten zero cell, as source or as destination, with nothing
written (42_add_sub R157, R159, R160, R162, R164, R165, 60_exceptions R181, R182; decisions D9, D11). -/
def Obligations.AddSubMemoryFaults : Prop :=
  ∀ (m : SymId) (s : State) (cause : FaultCause),
    (s.mem.cellAt m.toNat = none ∧ cause = .undeclaredMemoryAccess ∨
      (∃ c, s.mem.cellAt m.toNat = some c ∧ c.written = false ∧ c.data.value = 0) ∧
        cause = .useOfUninitializedMemory) →
    (∀ rd, exec (.addRM rd m) s = .next (raise ⟨cause, .operand1, m.setWidth 32⟩ s) ∧
        exec (.subRM rd m) s = .next (raise ⟨cause, .operand1, m.setWidth 32⟩ s)) ∧
      (∀ rs, exec (.addMR m rs) s = .next (raise ⟨cause, .operand0, m.setWidth 32⟩ s) ∧
        exec (.subMR m rs) s = .next (raise ⟨cause, .operand0, m.setWidth 32⟩ s)) ∧
      ∀ d, exec (.addMI m d) s = .next (raise ⟨cause, .operand0, m.setWidth 32⟩ s) ∧
        exec (.subMI m d) s = .next (raise ⟨cause, .operand0, m.setWidth 32⟩ s)

/-- OF after an Add or Sub of 16-bit registers: an Add clears it, though the 16-bit register may wrap, and a Sub sets it
exactly when the destination is less than the source (42_add_sub R166, derived there). -/
def Obligations.OverflowOfNarrowOperands : Prop :=
  ∀ (f g : Family) (s : State),
    (∃ t, exec (.addRR f.view16 g.view16) s = .next t ∧ t.flags.OF = false ∧
        (t.reg f.view16).toNat = ((s.reg f.view16).toNat + (s.reg g.view16).toNat) % 2 ^ 16) ∧
      ∃ t, exec (.subRR f.view16 g.view16) s = .next t ∧
        (t.flags.OF = true ↔ (s.reg f.view16).toNat < (s.reg g.view16).toNat)

/-! ## Memory -/

/-- MemRead (20_memory R57): the three outcomes, by the cell. It has no state to change: it answers a value only. -/
def Obligations.MemReadOutcomes : Prop :=
  ∀ (op : FaultOperand) (m : SymId) (s : State),
    (s.mem.cellAt m.toNat = none →
      memRead op m s = .error ⟨.undeclaredMemoryAccess, op, m.setWidth 32⟩) ∧
      ∀ c, s.mem.cellAt m.toNat = some c →
        (c.written = false ∧ c.data.value = 0 →
          memRead op m s = .error ⟨.useOfUninitializedMemory, op, m.setWidth 32⟩) ∧
        (c.written = true ∨ c.data.value ≠ 0 → memRead op m s = .ok c.data)

/-- MemWrite (20_memory R58): the check, the diagnostics, the whole cell overwritten at its own width, `written` set,
MEM_SET, and nothing else changed. -/
def Obligations.MemWriteEffect : Prop :=
  ∀ (op : FaultOperand) (m : SymId) (d : Data) (s : State),
    (s.mem.cellAt m.toNat = none →
      memWrite op m d s = .error ⟨.undeclaredMemoryAccess, op, m.setWidth 32⟩) ∧
      ∀ c, s.mem.cellAt m.toNat = some c → ∃ t e, memWrite op m d s = .ok t ∧
        t.mem.cellAt m.toNat = some e ∧ e.sect = c.sect ∧ e.data.width = c.data.width ∧
        e.data.value.toNat = d.value.toNat % 2 ^ c.data.width.bits ∧ e.written = true ∧
        (∀ a, a ≠ m.toNat → t.mem.cellAt a = s.mem.cellAt a) ∧
        t = { s with
          mem := t.mem,
          ev := s.ev ++
            (if c.data.width.bytes < d.width.bytes then [.diagTrunc (.sym m) (d.value >>> c.data.width.bits)]
             else if d.width.bytes < c.data.width.bytes ∧ s.widenDiag = true then [.diagWiden (.sym m)] else []) ++
            [.memSet m e.data.value] }

/-- A cell is readable after one write to any value, zero included (20_memory R59; decision D9). -/
def Obligations.StoredCellIsReadable : Prop :=
  ∀ (m : SymId) (d : Data) (s : State) (c : MemCell), s.mem.cellAt m.toNat = some c →
    ∃ t, exec (.movMI m d) s = .next t ∧ ∀ op, memRead op m t = .ok (d.conv c.data.width)

/-- Construction from the loader's input, a map, so that no id is declared twice: each entry's cell is (section, width,
initial value, written = false), 0 for bss, ids not in the map are absent, and `code` is the list (70_reset R213). -/
def Obligations.ConstructedMachineHasProgram : Prop :=
  ∀ p : Program, (p.declarations.map (fun x => x.1)).Nodup →
    (∀ m d, (m, d) ∈ p.data → (construct p).mem.cellAt m.toNat = some ⟨.data, d, false⟩) ∧
      (∀ m w, (m, w) ∈ p.bss → ∃ d, (construct p).mem.cellAt m.toNat = some ⟨.bss, d, false⟩ ∧
        d.width = w ∧ d.value = 0) ∧
      (∀ m : SymId, (∀ d, (m, d) ∉ p.data) → (∀ w, (m, w) ∉ p.bss) →
        (construct p).mem.cellAt m.toNat = none) ∧
      (construct p).code = p.code

/-! ## Syscall -/

/-- Number 60 ends the run with the status in BX; nothing else changes (43_syscall R170, R171; decision D10). -/
def Obligations.SyscallExit : Prop :=
  ∀ s : State, s.reg .ax = 60 →
    exec .syscall s = .next { s with exitStatus := s.reg .bx, st := .halted .exit }

/-- Number 1 completes when the buffer cell named by DX is declared: that cell takes the low bits of what `io_read`
returns, a free value, and no register, flag or other cell changes (43_syscall R172; decisions D10, D20; log 5). -/
def Obligations.SyscallReadFillsBuffer : Prop :=
  ∀ (s : State) (c : MemCell), s.reg .ax = 1 → s.mem.cellAt (syscallBuffer s).toNat = some c →
    ∃ t d, exec .syscall s = .next t ∧
      d = Data.ofValue c.data.width
        (Config.ioRead s.ioCalls (s.reg .bx) (s.reg .cx) (syscallBuffer s) c.data.width) ∧
      OnlyCellIs (syscallBuffer s) ⟨c.sect, d, true⟩ s t ∧
      t = { s with mem := t.mem, ev := s.ev ++ [.memSet (syscallBuffer s) d.value],
                   ioCalls := s.ioCalls + 1, st := .fetching }

/-- Number 2 completes when the buffer cell named by DX is readable: only the event IO_WRITE (43_syscall R173; decisions D10,
D20; log 6: the call of `io_write` returns). -/
def Obligations.SyscallWriteEmitsBuffer : Prop :=
  ∀ (s : State) (c : MemCell), s.reg .ax = 2 → s.mem.cellAt (syscallBuffer s).toNat = some c → c.readable →
    exec .syscall s =
      .next { s with ev := s.ev ++ [.ioWrite (s.reg .bx) (s.reg .cx) (syscallBuffer s) c.data], st := .fetching }

/-- Any other number is recoverable: the event, nothing else, and the run goes on (43_syscall R174, 60_exceptions R188;
decisions D10, D18). -/
def Obligations.SyscallUnknownContinues : Prop :=
  ∀ s : State, s.reg .ax ≠ 60 → s.reg .ax ≠ 1 → s.reg .ax ≠ 2 →
    exec .syscall s = .next { s with ev := s.ev ++ [.errUnknownSyscall (s.reg .ax)], st := .fetching }

/-- The memory faults of numbers 1 and 2, on the buffer id in the low 16 bits of DX (43_syscall R172, R173, 60_exceptions
R181, R182; decisions D10, D11). -/
def Obligations.SyscallMemoryFaults : Prop :=
  ∀ s : State,
    ((s.reg .ax = 1 ∨ s.reg .ax = 2) → s.mem.cellAt ((s.reg .dx).toNat % 2 ^ 16) = none →
      exec .syscall s =
        .next (raise ⟨.undeclaredMemoryAccess, .noOperand, (syscallBuffer s).setWidth 32⟩ s)) ∧
      ∀ c, s.reg .ax = 2 → s.mem.cellAt ((s.reg .dx).toNat % 2 ^ 16) = some c → c.written = false →
        c.data.value = 0 →
        exec .syscall s =
          .next (raise ⟨.useOfUninitializedMemory, .noOperand, (syscallBuffer s).setWidth 32⟩ s)

/-! ## Faults and the status state -/

/-- Fault entry for an instruction fetched from index `i` (60_exceptions R191): the four fields of the record, the run
state, and every other piece of state as it was. -/
def Obligations.FaultEntryRecordsCause : Prop :=
  ∀ (f : Fatal) (s : State) (i : Nat), i < 65535 → s.ip = BitVec.ofNat 16 (i + 1) →
    raise f s = { s with fault := ⟨f.cause, BitVec.ofNat 16 i, f.operand, f.info⟩, st := .halted .fault }

/-- An instruction that ends in a fatal error has changed nothing but `fault` and `st` (40_decode R120, derived there;
log 1: IP was incremented by the fetch). -/
def Obligations.FaultingInstructionWritesNothing : Prop :=
  ∀ (i : Instr) (s t : State), exec i s = .next t → t.st = .halted .fault →
    ∃ f : Fatal, (f.cause = .undeclaredMemoryAccess ∨ f.cause = .useOfUninitializedMemory) ∧
      t = { s with fault := ⟨f.cause, s.ip - 1, f.operand, f.info⟩, st := .halted .fault }

/-- Faults are precise: a step from Fetching that ends in a fatal error leaves everything as before but IP, one more, `st`
and the record, which names the index fetched from; its cause is one of the six a program can raise (60_exceptions R192,
42_add_sub R153, both derived there). -/
def Obligations.FaultsArePrecise : Prop :=
  ∀ s t : State, s.st = .fetching → step s = .next t → t.st = .halted .fault →
    ∃ f : Fatal, f.cause ≠ .none ∧ f.cause ≠ .aluModeOff ∧
      t = { s with ip := s.ip + 1, fault := ⟨f.cause, s.ip, f.operand, f.info⟩, st := .halted .fault }

/-- AluModeOff cannot be raised by any step, though `execute` in mode Off has no result (42_add_sub R153, derived there). -/
def Obligations.AluModeOffUnreachable : Prop :=
  (∀ a b, Alu.execute ⟨.off, a, b⟩ = none) ∧
    ∀ s t : State, step s = .next t → t.st = .halted .fault → t.fault.cause ≠ .aluModeOff

/-- The nine flags packed in their listing order, and the port codes of run state, cause and operand (10_state R27, R28,
R29, 60_exceptions R180; decisions D11, D14, D19). -/
def Obligations.StatusPortCodes : Prop :=
  (∀ f : Flags, f.pack.getLsbD 0 = f.CF ∧ f.pack.getLsbD 1 = f.ZF ∧ f.pack.getLsbD 2 = f.SF ∧
      f.pack.getLsbD 3 = f.OF ∧ f.pack.getLsbD 4 = f.PF ∧ f.pack.getLsbD 5 = f.AF ∧ f.pack.getLsbD 6 = f.IF ∧
      f.pack.getLsbD 7 = f.DF ∧ f.pack.getLsbD 8 = f.TF) ∧
    RunState.portCode .idle = 0 ∧ RunState.portCode .fetching = 1 ∧ (∀ o, RunState.portCode (.decoding o) = 2) ∧
    RunState.portCode (.halted .endOfCode) = 4 ∧ RunState.portCode (.halted .exit) = 5 ∧
    RunState.portCode (.halted .fault) = 6 ∧
    FaultCause.code .none = 0 ∧ FaultCause.code .undeclaredMemoryAccess = 1 ∧
    FaultCause.code .useOfUninitializedMemory = 2 ∧ FaultCause.code .wrongArity = 3 ∧
    FaultCause.code .illegalAddressingMode = 4 ∧ FaultCause.code .unimplementedOpcode = 5 ∧
    FaultCause.code .aluModeOff = 6 ∧ FaultCause.code .illegalEncoding = 7 ∧
    FaultOperand.code .operand0 = 0 ∧ FaultOperand.code .operand1 = 1 ∧ FaultOperand.code .noOperand = 3

/-! ## The step -/

/-- Fetch (40_decode R111): the end of the program, or the word at IP with IP incremented before decode; and the increment
stands whatever happens to the instruction. That `fetch` is part of one whole step is log 1; that the step of every fetched
instruction ends, Syscall 1 and 2 included, rests on log 5 and log 6 (the host's calls return). -/
def Obligations.FetchAdvancesIp : Prop :=
  ∀ s : State, s.st = .fetching → s.code.length ≤ 65535 →
    (s.ip.toNat = s.code.length →
      fetch s = .next { s with st := .halted .endOfCode } ∧ step s = fetch s) ∧
      ∀ w, s.code[s.ip.toNat]? = some w →
        fetch s = .next { s with ip := s.ip + 1, st := .decoding (w.extractLsb' 88 8) } ∧
          (s.ip + 1).toNat = s.ip.toNat + 1 ∧ ∃ t, step s = .next t ∧ t.ip = s.ip + 1

/-- A step in Fetching at a word that decodes to `i` is `exec i` of the state after the fetch; at a word the decoder
rejects it is the fault entry there (40_decode R111, R112, R123; log 1). -/
def Obligations.StepRunsDecodedInstruction : Prop :=
  ∀ (s : State) (w : W96), s.st = .fetching → s.code.length ≤ 65535 → s.code[s.ip.toNat]? = some w →
    (∀ i, decodeWord w = .ok i →
      step s = exec i { s with ip := s.ip + 1, st := .decoding (wordOpc w) }) ∧
      ∀ e, decodeWord w = .error e →
        step s = .next (raise e.fatal { s with ip := s.ip + 1, st := .decoding (wordOpc w) })

/-- The two halves of an instruction taken one after the other are the one step of the model (40_decode R123, derived
there; log 1). -/
def Obligations.StepIsFetchThenDecode : Prop :=
  ∀ (s t : State) (opc : BitVec 8), s.st = .fetching → fetch s = .next t → t.st = .decoding opc →
    step s = step t

/-- The model's load of a word is run by the very next step (log 4). -/
def Obligations.LoadedWordRunsNext : Prop :=
  ∀ (s : State) (w : Nat) (i : Instr), s.code.length ≤ 65535 → s.ip.toNat < 65535 →
    decodeTableWord 96 w = some i →
    step (s.withFetchWord 96 w) =
      exec i { s.withFetchWord 96 w with
        ip := s.ip + 1, st := .decoding (wordOpc (BitVec.ofNat 96 (w % 2 ^ 96))) }

/-- `run` starts an idle machine and is ignored in every other state; a halted machine has no step (40_decode R110, R122;
decision D19; log 2, log 3). -/
def Obligations.RunOnlyFromIdle : Prop :=
  ∀ s : State,
    (s.st = .idle → runRequest s = { s with st := .fetching } ∧ step s = .next (runRequest s)) ∧
      (s.st ≠ .idle → runRequest s = s) ∧
      ∀ r, s.st = .halted r → step s = .fault .alreadyHalted

/-- Every instruction answers a next state in every state: none is refused and none stops the machine outside the spec's
fault entry (60_exceptions R180, R191; 43_syscall R170; log 5, log 6: the host's calls return). -/
def Obligations.EveryInstructionAnswersNext : Prop := ∀ (i : Instr) (s : State), ∃ t, exec i s = .next t ∧ t.ip = s.ip

/-! ## Whole-machine rules -/

/-- The reset state (10_state R34, 70_reset R210, R211; decisions D11, D12, D17; log 4, log 7). -/
def Obligations.ResetState : Prop :=
  (∀ f k, State.reset.lane f k = 0) ∧ State.reset.ip = 0 ∧ State.reset.sp = 0 ∧ State.reset.bp = 0 ∧
    State.reset.flags.pack = 0 ∧ State.reset.st = .idle ∧ State.reset.fault = ⟨.none, 0, .operand0, 0⟩ ∧
    State.reset.exitStatus = 0 ∧ State.reset.alu = ⟨.off, 0, 0⟩ ∧ State.reset.ev = [] ∧
    (∀ a, State.reset.mem.cellAt a = none)

/-- The invariant holds at reset and of every machine constructed with a valid program (10_state R34, R22, 70_reset R213). -/
def Obligations.InvariantAtConstruction : Prop :=
  State.reset.Inv ∧ ∀ p : Program, p.valid → (construct p).Inv

/-- Every step keeps the invariant: memory in canonical form, NINSTR ≤ 65535, 0 ≤ IP ≤ NINSTR, and in each run state its
records as 70_reset R217 says (10_state R22, R28 to R30; 20_memory R54). -/
def Obligations.InvariantKeptByStep : Prop := ∀ s t : State, s.Inv → step s = .next t → t.Inv

/-- SP, BP and the eight flags other than OF are changed by no step (10_state R23, R26, derived there). -/
def Obligations.UnwrittenStateStays : Prop :=
  ∀ s t : State, step s = .next t →
    t.sp = s.sp ∧ t.bp = s.bp ∧ t.flags.CF = s.flags.CF ∧ t.flags.ZF = s.flags.ZF ∧ t.flags.SF = s.flags.SF ∧
      t.flags.PF = s.flags.PF ∧ t.flags.AF = s.flags.AF ∧ t.flags.IF = s.flags.IF ∧ t.flags.DF = s.flags.DF ∧
      t.flags.TF = s.flags.TF

/-- OF is written by no instruction but Add and Sub, and by none that ends in a fatal error (10_state R25, 41_mov R145;
decision D8 concerns the value, not the writers). -/
def Obligations.OverflowFlagWriters : Prop :=
  ∀ (i : Instr) (s t : State), exec i s = .next t → (isAddOrSub i = false ∨ t.st = .halted .fault) →
    t.flags = s.flags

/-- The program and the declarations are constant throughout a run: code, NINSTR, the declared symbols with their section
and width (10_state R36). The host function `Config.ioRead` is a constant of the model. -/
def Obligations.ProgramAndDeclarationsConstant : Prop :=
  ∀ s t : State, step s = .next t →
    t.code = s.code ∧ t.code.length = s.code.length ∧ t.widenDiag = s.widenDiag ∧
      ∀ m : SymId, t.declaration m = s.declaration m

/-- The event stream is only appended to, and a cell's `written` bit never goes back to false (10_state R33, 20_memory
R54; decisions D1, D17). -/
def Obligations.TraceAndWrittenBitsGrow : Prop :=
  ∀ s t : State, step s = .next t →
    s.ev <+: t.ev ∧
      ∀ a c, s.mem.cellAt a = some c → c.written = true → ∃ d, t.mem.cellAt a = some d ∧ d.written = true

/-- No rule reads the event stream, WIDEN_DIAG or the ALU scratch: two states that differ only in them step to states that
differ only in them (10_state R31, R33, 60_exceptions R189; decisions D12, D17, D24). -/
def Obligations.HiddenStateIsNotRead : Prop :=
  ∀ s t : State, s.eraseHidden = t.eraseHidden →
    mapNext State.eraseHidden (step s) = mapNext State.eraseHidden (step t)

/-- Every run ends: from any state of the invariant, a halted state is reached in at most one step for each instruction
left and two more, for `run` and for the end of the program (40_decode R124, 70_reset R216, derived there). It rests on the
model's own choices: a step in Idle is the `run` request (log 3), and a call of the host's `io_read` (log 5) or `io_write`
(log 6) returns, which is R216's proviso. -/
def Obligations.EveryRunHalts : Prop :=
  ∀ s : State, s.Inv → ∃ k, k ≤ s.code.length - s.ip.toNat + 2 ∧ ∃ t, core.run k s = .next t ∧ t.isHalted
end

