-- ==== Sys2Proof/Laws/Data.lean ====
section
/-! SUPPORT. Laws of widths, Data values and register views. -/

namespace Sys2Proof

@[simp] theorem Data.width_ofValue (w : Width) (v : Word32) : (Data.ofValue w v).width = w := by
  cases w <;> rfl

@[simp] theorem Data.width_conv (w : Width) (d : Data) : (d.conv w).width = w := Data.width_ofValue w d.value

/-- A Data value's number is below `2^bits(width)` (20_memory R51). -/
theorem Data.value_lt (d : Data) : d.value.toNat < 2 ^ d.width.bits := by
  cases d with
  | byte v => simpa [Data.value, Data.width, Width.bits, Width.bytes] using Nat.lt_of_le_of_lt (Nat.mod_le _ _) v.isLt
  | word v => simpa [Data.value, Data.width, Width.bits, Width.bytes] using Nat.lt_of_le_of_lt (Nat.mod_le _ _) v.isLt
  | dword v => exact v.isLt

/-- The number of `(w, trunc(v))` is `v mod 2^bits(w)`. -/
theorem Data.value_ofValue_toNat (w : Width) (v : Word32) :
    (Data.ofValue w v).value.toNat = v.toNat % 2 ^ w.bits := by
  have h : v.toNat < 2 ^ 32 := v.isLt
  cases w <;> simp [Data.ofValue, Data.value, Width.bits, Width.bytes] <;> omega

/-- A Data value is determined by its width and its number. -/
@[simp] theorem Data.ofValue_value (d : Data) : Data.ofValue d.width d.value = d := by
  cases d <;> simp [Data.ofValue, Data.value, Data.width]

/-- Conversion to the width a value has changes nothing (20_memory R53). -/
@[simp] theorem Data.conv_self (d : Data) : d.conv d.width = d := Data.ofValue_value d

theorem Data.conv_ofValue (w : Width) (v : Word32) : (Data.ofValue w v).conv w = Data.ofValue w v := by
  simpa using Data.conv_self (Data.ofValue w v)

/-- A number that fits comes back unchanged. -/
theorem Data.value_ofValue_of_lt {w : Width} {v : Word32} (h : v.toNat < 2 ^ w.bits) :
    (Data.ofValue w v).value = v :=
  BitVec.eq_of_toNat_eq (by rw [Data.value_ofValue_toNat, Nat.mod_eq_of_lt h])

@[simp] theorem RegView.ofId_id (r : RegView) : RegView.ofId r.id = r := by cases r <;> rfl

@[simp] theorem RegView.id_ofId (n : BitVec 3) : (RegView.ofId n).id = n := by
  revert n; decide

theorem RegView.id_inj {r q : RegView} (h : r.id = q.id) : r = q := by
  rw [← RegView.ofId_id r, h, RegView.ofId_id]

/-- `fam(id) = id mod 4` and the view is 32 bits wide exactly for ids 4 to 7 (10_state R12). -/
theorem RegView.width_eq_dword_iff (r : RegView) : r.width = .dword ↔ 4 ≤ r.id.toNat := by
  cases r <;> decide

theorem RegView.eq_of_fam_width {r q : RegView} (hf : r.fam = q.fam) (hw : r.width = q.width) : r = q := by
  cases r <;> cases q <;> simp_all [RegView.fam, RegView.width]

@[simp] theorem Family.fam_view16 (f : Family) : f.view16.fam = f := by cases f <;> rfl
@[simp] theorem Family.fam_view32 (f : Family) : f.view32.fam = f := by cases f <;> rfl
@[simp] theorem Family.width_view16 (f : Family) : f.view16.width = .word := by cases f <;> rfl
@[simp] theorem Family.width_view32 (f : Family) : f.view32.width = .dword := by cases f <;> rfl

/-- Every view is one of its family's two. -/
theorem RegView.eq_view (r : RegView) : r = r.fam.view16 ∨ r = r.fam.view32 := by
  cases r <;> simp [RegView.fam, Family.view16, Family.view32]

@[simp] theorem Width.narrower_self (w : Width) : w.narrower w = w := by cases w <;> rfl

theorem Width.bytes_narrower (a b : Width) : (a.narrower b).bytes = min a.bytes b.bytes := by
  cases a <;> cases b <;> rfl

end Sys2Proof
end

