-- ==== Sys2Proof/Laws/Decode.lean ====
section
/-! SUPPORT. The fields of an encoded word and slot, each one lemma. -/

namespace Sys2Proof

theorem extract_append_low {m n : Nat} (x : BitVec m) (y : BitVec n) : (x ++ y).extractLsb' 0 n = y := by
  apply BitVec.eq_of_getLsbD_eq
  intro i hi
  simp [BitVec.getLsbD_append, hi]

theorem extract_append_high {m n : Nat} (x : BitVec m) (y : BitVec n) (k len : Nat) :
    (x ++ y).extractLsb' (n + k) len = x.extractLsb' k len := by
  apply BitVec.eq_of_getLsbD_eq
  intro i hi
  simp [BitVec.getLsbD_append, Nat.add_assoc]

theorem extract_full {m : Nat} (x : BitVec m) : x.extractLsb' 0 m = x := by
  apply BitVec.eq_of_getLsbD_eq
  intro i hi
  simp [hi]

theorem extract_and {n : Nat} (x y : BitVec n) (k l : Nat) :
    (x &&& y).extractLsb' k l = x.extractLsb' k l &&& y.extractLsb' k l := by
  apply BitVec.eq_of_getLsbD_eq
  intro i hi
  simp [hi]

/-- A slot is its fields (30_encoding R82). -/
theorem makeSlot_fields (k : BitVec 3) (t : BitVec 2) (p : BitVec 32) :
    slotKind (makeSlot k t p) = k ∧ slotWt (makeSlot k t p) = t ∧ slotSrsv (makeSlot k t p) = 0 ∧
      slotPay (makeSlot k t p) = p := by
  refine ⟨?_, ?_, ?_, ?_⟩
  · exact (extract_append_high _ _ 5 3).trans ((extract_append_high _ _ 2 3).trans
      ((extract_append_high _ _ 0 3).trans (extract_full k)))
  · exact (extract_append_high _ _ 3 2).trans ((extract_append_high _ _ 0 2).trans (extract_append_low _ _))
  · exact (extract_append_high _ _ 0 3).trans (extract_append_low _ _)
  · exact extract_append_low _ _

@[simp] theorem slotKind_makeSlot (k : BitVec 3) (t : BitVec 2) (p : BitVec 32) : slotKind (makeSlot k t p) = k :=
  (makeSlot_fields k t p).1
@[simp] theorem slotWt_makeSlot (k : BitVec 3) (t : BitVec 2) (p : BitVec 32) : slotWt (makeSlot k t p) = t :=
  (makeSlot_fields k t p).2.1
@[simp] theorem slotSrsv_makeSlot (k : BitVec 3) (t : BitVec 2) (p : BitVec 32) : slotSrsv (makeSlot k t p) = 0 :=
  (makeSlot_fields k t p).2.2.1
@[simp] theorem slotPay_makeSlot (k : BitVec 3) (t : BitVec 2) (p : BitVec 32) : slotPay (makeSlot k t p) = p :=
  (makeSlot_fields k t p).2.2.2

/-- A slot is its four fields (30_encoding R82). -/
theorem slot_eq_fields (b : BitVec 40) : b = slotKind b ++ slotWt b ++ slotSrsv b ++ slotPay b := by
  apply BitVec.eq_of_getLsbD_eq
  intro i hi
  rw [BitVec.getLsbD_append, BitVec.getLsbD_append, BitVec.getLsbD_append]
  unfold slotKind slotWt slotSrsv slotPay
  simp only [BitVec.getLsbD_extractLsb']
  by_cases h1 : i < 32
  · simp [h1]
  · by_cases h2 : i < 35
    · simp [h1, show i - 32 < 3 by omega, show 32 + (i - 32) = i by omega]
    · by_cases h3 : i < 37
      · simp [h1, show ¬ (i - 32 < 3) by omega, show i - 32 - 3 < 2 by omega, show 35 + (i - 32 - 3) = i by omega]
      · simp [h1, show ¬ (i - 32 < 3) by omega, show ¬ (i - 32 - 3 < 2) by omega,
          show i - 32 - 3 - 2 < 3 by omega, show 37 + (i - 32 - 3 - 2) = i by omega]

/-- A slot is made of its fields, when its reserved bits are 0. -/
theorem makeSlot_of_fields {b : BitVec 40} (h : slotSrsv b = 0) : makeSlot (slotKind b) (slotWt b) (slotPay b) = b := by
  conv_rhs => rw [slot_eq_fields b, h]
  rfl

/-- The fields of a word made by the encoder (30_encoding R81). -/
theorem encodeRaw_fields (r : RawInstr) :
    wordOpc (encodeRaw r) = r.opc ∧ wordNops (encodeRaw r) = r.nops ∧ wordRsv (encodeRaw r) = 0 ∧
      wordSlot0 (encodeRaw r) = encodeSlot r.ops[0]? ∧ wordSlot1 (encodeRaw r) = encodeSlot r.ops[1]? := by
  refine ⟨?_, ?_, ?_, ?_, ?_⟩
  · exact (extract_append_high _ _ 48 8).trans ((extract_append_high _ _ 8 8).trans
      ((extract_append_high _ _ 4 8).trans ((extract_append_high _ _ 0 8).trans (extract_full _))))
  · exact (extract_append_high _ _ 44 4).trans ((extract_append_high _ _ 4 4).trans
      ((extract_append_high _ _ 0 4).trans (extract_append_low _ _)))
  · exact (extract_append_high _ _ 40 4).trans ((extract_append_high _ _ 0 4).trans (extract_append_low _ _))
  · exact (extract_append_high _ _ 0 40).trans (extract_append_low _ _)
  · exact extract_append_low _ _

/-- A word is its five fields (30_encoding R81). -/
theorem word_eq_fields (w : W96) : w = wordOpc w ++ wordNops w ++ wordRsv w ++ wordSlot0 w ++ wordSlot1 w := by
  apply BitVec.eq_of_getLsbD_eq
  intro i hi
  rw [BitVec.getLsbD_append, BitVec.getLsbD_append, BitVec.getLsbD_append, BitVec.getLsbD_append]
  unfold wordOpc wordNops wordRsv wordSlot0 wordSlot1
  simp only [BitVec.getLsbD_extractLsb']
  by_cases h1 : i < 40
  · simp [h1]
  · by_cases h2 : i < 80
    · simp [h1, show i - 40 < 40 by omega, show 40 + (i - 40) = i by omega]
    · by_cases h3 : i < 84
      · simp [h1, show ¬ (i - 40 < 40) by omega, show i - 40 - 40 < 4 by omega, show 80 + (i - 40 - 40) = i by omega]
      · by_cases h4 : i < 88
        · simp [h1, show ¬ (i - 40 < 40) by omega, show ¬ (i - 40 - 40 < 4) by omega,
            show i - 40 - 40 - 4 < 4 by omega, show 84 + (i - 40 - 40 - 4) = i by omega]
        · simp [h1, show ¬ (i - 40 < 40) by omega, show ¬ (i - 40 - 40 < 4) by omega,
            show ¬ (i - 40 - 40 - 4 < 4) by omega, show i - 40 - 40 - 4 - 4 < 8 by omega,
            show 88 + (i - 40 - 40 - 4 - 4) = i by omega]

/-- A word is made of its fields, when its reserved bits are 0. -/
theorem word_of_fields {w : W96} (h : wordRsv w = 0) :
    wordOpc w ++ wordNops w ++ (0#4) ++ wordSlot0 w ++ wordSlot1 w = w := by
  conv_rhs => rw [word_eq_fields w, h]
  rfl

@[simp] theorem widthOfTag_tagOfWidth (w : Width) : widthOfTag (tagOfWidth w) = w := by cases w <;> rfl

theorem tagOfWidth_widthOfTag {t : BitVec 2} (h : t ≠ 3) : tagOfWidth (widthOfTag t) = t := by
  revert t; decide

theorem tagOfWidth_ne_reserved (w : Width) : tagOfWidth w ≠ 3 := by cases w <;> decide

/-- The slot of an operand is well-formed (30_encoding R87 item 2). -/
theorem operandSlotOk_encodeOperand (o : Operand) : operandSlotOk (encodeOperand o) = true := by
  cases o with
  | reg r =>
    have h : (r.id.setWidth 32).toNat < 8 := by cases r <;> decide
    simp only [operandSlotOk, encodeOperand, slotSrsv_makeSlot, slotKind_makeSlot, slotWt_makeSlot, slotPay_makeSlot]
    rw [decide_eq_true h]; rfl
  | mem s =>
    have h : (s.setWidth 32).toNat < 65536 := by simp [BitVec.toNat_setWidth]; omega
    simp only [operandSlotOk, encodeOperand, slotSrsv_makeSlot, slotKind_makeSlot, slotWt_makeSlot, slotPay_makeSlot]
    rw [decide_eq_true h]; rfl
  | imm d =>
    have h := d.value_lt
    have h3 := tagOfWidth_ne_reserved d.width
    simp only [operandSlotOk, encodeOperand, slotSrsv_makeSlot, slotKind_makeSlot, slotWt_makeSlot, slotPay_makeSlot,
      widthOfTag_tagOfWidth]
    rw [decide_eq_true h]
    simpa [kindReg, kindMem, kindImm] using h3

/-- The operand of a slot made from an operand (30_encoding R85, R88). -/
@[simp] theorem operandOf_encodeOperand (o : Operand) : operandOf (encodeOperand o) = o := by
  cases o with
  | reg r =>
    simp only [operandOf, encodeOperand, slotKind_makeSlot, slotPay_makeSlot]
    have : (r.id.setWidth 32).setWidth 3 = r.id := by cases r <;> rfl
    rw [this]; simp
  | mem s =>
    simp only [operandOf, encodeOperand, slotKind_makeSlot, slotPay_makeSlot]
    have : (s.setWidth 32).setWidth 16 = s := by simp
    rw [this]; simp [kindReg, kindMem]
  | imm d =>
    simp only [operandOf, encodeOperand, slotKind_makeSlot, slotPay_makeSlot, slotWt_makeSlot, widthOfTag_tagOfWidth]
    simp [kindReg, kindMem, kindImm]

/-- The slot made from the operand of a well-formed slot is that slot (30_encoding R88). -/
theorem encodeOperand_operandOf {b : BitVec 40} (h : operandSlotOk b = true) : encodeOperand (operandOf b) = b := by
  unfold operandSlotOk at h
  rw [Bool.and_eq_true, beq_iff_eq] at h
  obtain ⟨hs, h⟩ := h
  have hb := makeSlot_of_fields hs
  unfold operandOf
  by_cases h1 : slotKind b = kindReg
  · rw [if_pos (beq_iff_eq.2 h1)] at h ⊢
    rw [Bool.and_eq_true, beq_iff_eq, decide_eq_true_eq] at h
    rw [← hb, h1, h.1]
    simp only [encodeOperand, RegView.id_ofId, slotPay_makeSlot]
    congr 1
    apply BitVec.eq_of_toNat_eq
    have := h.2
    simp only [BitVec.toNat_setWidth]
    omega
  · rw [if_neg (by simpa using h1)] at h ⊢
    by_cases h2 : slotKind b = kindMem
    · rw [if_pos (beq_iff_eq.2 h2)] at h ⊢
      rw [Bool.and_eq_true, beq_iff_eq, decide_eq_true_eq] at h
      rw [← hb, h2, h.1]
      simp only [encodeOperand, slotPay_makeSlot]
      congr 1
      apply BitVec.eq_of_toNat_eq
      have := h.2
      simp only [BitVec.toNat_setWidth]
      omega
    · rw [if_neg (by simpa using h2)] at h ⊢
      by_cases h4 : slotKind b = kindImm
      · rw [if_pos (beq_iff_eq.2 h4)] at h
        rw [Bool.and_eq_true, bne_iff_ne, decide_eq_true_eq] at h
        conv_rhs => rw [← hb, h4]
        simp only [encodeOperand, Data.width_ofValue]
        rw [tagOfWidth_widthOfTag h.1, Data.value_ofValue_of_lt h.2]
      · rw [if_neg (by simpa using h4)] at h
        cases h

/-- A word under a mask, field by field (30_encoding R91). -/
theorem word_and_eq {w m p : W96}
    (h1 : wordOpc w &&& wordOpc m = wordOpc p) (h2 : wordNops w &&& wordNops m = wordNops p)
    (h3 : wordRsv w &&& wordRsv m = wordRsv p) (h4 : wordSlot0 w &&& wordSlot0 m = wordSlot0 p)
    (h5 : wordSlot1 w &&& wordSlot1 m = wordSlot1 p) : w &&& m = p := by
  rw [word_eq_fields (w &&& m), word_eq_fields p]
  unfold wordOpc wordNops wordRsv wordSlot0 wordSlot1 at *
  simp only [extract_and, h1, h2, h3, h4, h5]

/-- A slot under a mask, field by field. -/
theorem slot_and_eq {w m p : BitVec 40}
    (h1 : slotKind w &&& slotKind m = slotKind p) (h2 : slotWt w &&& slotWt m = slotWt p)
    (h3 : slotSrsv w &&& slotSrsv m = slotSrsv p) (h4 : slotPay w &&& slotPay m = slotPay p) : w &&& m = p := by
  rw [slot_eq_fields (w &&& m), slot_eq_fields p]
  unfold slotKind slotWt slotSrsv slotPay at *
  simp only [extract_and, h1, h2, h3, h4]

/-- The form chosen by an opcode has that opcode (30_encoding R91). -/
theorem formOf_toRaw {opc : BitVec 8} (h : opc = opcMov ∨ opc = opcAdd ∨ opc = opcSub) (m a s : Instr) (ops)
    (hm : m.toRaw = ⟨opcMov, 2, ops⟩) (ha : a.toRaw = ⟨opcAdd, 2, ops⟩) (hs : s.toRaw = ⟨opcSub, 2, ops⟩) :
    (formOf opc m a s).toRaw = ⟨opc, 2, ops⟩ := by
  rcases h with rfl | rfl | rfl
  · simpa [formOf] using hm
  · rw [formOf, if_neg (by decide), if_pos rfl]; exact ha
  · rw [formOf, if_neg (by decide), if_neg (by decide)]; exact hs

/-- An abstract instruction selects a form only if it is that form's own (30_encoding R91). -/
theorem selectForm_toRaw {r : RawInstr} {i : Instr} (h : selectForm r = .ok i) : i.toRaw = r := by
  obtain ⟨opc, nops, ops⟩ := r
  unfold selectForm at h
  simp only at h
  split at h
  · cases h
  · rename_i n hn
    split at h
    · rename_i hnn
      subst hnn
      unfold arityOf at hn
      split at h
      · split at h
        · rename_i he; subst he; cases h
          have : nops = 0 := by simpa [opcMov, opcAdd, opcSub, opcSyscall] using hn.symm
          subst this; rfl
        · cases h
      · rename_i d s
        split at h
        · cases h
        · rename_i hsys
          have hopc : opc = opcMov ∨ opc = opcAdd ∨ opc = opcSub := by
            by_contra hc; simp [hc, hsys] at hn
          rw [if_pos hopc] at hn
          cases hn
          cases d <;> cases s <;> cases h <;> exact formOf_toRaw hopc _ _ _ _ rfl rfl rfl
      · cases h
    · cases h

/-- A two-operand opcode with two operands selects by the pair (40_decode R114, R115). -/
theorem selectForm_two (opc : BitVec 8) (a b : Operand) (hopc : opc = 1 ∨ opc = 2 ∨ opc = 3) :
    selectForm ⟨opc, 2, [a, b]⟩ = selectPair opc a b := by
  unfold selectForm arityOf
  rcases hopc with rfl | rfl | rfl <;> rfl

/-- The decoder on a well-formed word of a two-operand opcode (40_decode R112). -/
theorem decodeWord_two {w : W96} (hok : wordOk w = true) (hopc : wordOpc w = 1 ∨ wordOpc w = 2 ∨ wordOpc w = 3)
    (hn : wordNops w = 2) : decodeWord w = selectPair (wordOpc w) (operandOf (wordSlot0 w)) (operandOf (wordSlot1 w)) := by
  unfold decodeWord decodeRaw
  rw [if_pos hok, hn]
  exact selectForm_two _ _ _ hopc

end Sys2Proof
end

