-- ==== Sys2Proof/Laws/State.lean ====
section
/-! SUPPORT. One lemma per field per update of the state: what each shared update writes and what it leaves. -/

namespace Sys2Proof.Machine

@[simp] theorem emit_gpr (es : List Event) (s : State) :
    (emit es s).gpr = s.gpr := rfl
@[simp] theorem emit_sp (es : List Event) (s : State) :
    (emit es s).sp = s.sp := rfl
@[simp] theorem emit_bp (es : List Event) (s : State) :
    (emit es s).bp = s.bp := rfl
@[simp] theorem emit_ip (es : List Event) (s : State) :
    (emit es s).ip = s.ip := rfl
@[simp] theorem emit_flags (es : List Event) (s : State) :
    (emit es s).flags = s.flags := rfl
@[simp] theorem emit_st (es : List Event) (s : State) :
    (emit es s).st = s.st := rfl
@[simp] theorem emit_fault (es : List Event) (s : State) :
    (emit es s).fault = s.fault := rfl
@[simp] theorem emit_exitStatus (es : List Event) (s : State) :
    (emit es s).exitStatus = s.exitStatus := rfl
@[simp] theorem emit_alu (es : List Event) (s : State) :
    (emit es s).alu = s.alu := rfl
@[simp] theorem emit_mem (es : List Event) (s : State) :
    (emit es s).mem = s.mem := rfl
@[simp] theorem emit_ev (es : List Event) (s : State) :
    (emit es s).ev = s.ev ++ es := rfl
@[simp] theorem emit_code (es : List Event) (s : State) :
    (emit es s).code = s.code := rfl
@[simp] theorem emit_widenDiag (es : List Event) (s : State) :
    (emit es s).widenDiag = s.widenDiag := rfl
@[simp] theorem emit_ioCalls (es : List Event) (s : State) :
    (emit es s).ioCalls = s.ioCalls := rfl

@[simp] theorem writeLanes_gpr (r : RegView) (w : Width) (v : BitVec 32) (es : List Event) (s : State) :
    (writeLanes r w v es s).gpr = s.gpr.writeLow r w v := rfl
@[simp] theorem writeLanes_sp (r : RegView) (w : Width) (v : BitVec 32) (es : List Event) (s : State) :
    (writeLanes r w v es s).sp = s.sp := rfl
@[simp] theorem writeLanes_bp (r : RegView) (w : Width) (v : BitVec 32) (es : List Event) (s : State) :
    (writeLanes r w v es s).bp = s.bp := rfl
@[simp] theorem writeLanes_ip (r : RegView) (w : Width) (v : BitVec 32) (es : List Event) (s : State) :
    (writeLanes r w v es s).ip = s.ip := rfl
@[simp] theorem writeLanes_flags (r : RegView) (w : Width) (v : BitVec 32) (es : List Event) (s : State) :
    (writeLanes r w v es s).flags = s.flags := rfl
@[simp] theorem writeLanes_st (r : RegView) (w : Width) (v : BitVec 32) (es : List Event) (s : State) :
    (writeLanes r w v es s).st = s.st := rfl
@[simp] theorem writeLanes_fault (r : RegView) (w : Width) (v : BitVec 32) (es : List Event) (s : State) :
    (writeLanes r w v es s).fault = s.fault := rfl
@[simp] theorem writeLanes_exitStatus (r : RegView) (w : Width) (v : BitVec 32) (es : List Event) (s : State) :
    (writeLanes r w v es s).exitStatus = s.exitStatus := rfl
@[simp] theorem writeLanes_alu (r : RegView) (w : Width) (v : BitVec 32) (es : List Event) (s : State) :
    (writeLanes r w v es s).alu = s.alu := rfl
@[simp] theorem writeLanes_mem (r : RegView) (w : Width) (v : BitVec 32) (es : List Event) (s : State) :
    (writeLanes r w v es s).mem = s.mem := rfl
@[simp] theorem writeLanes_ev (r : RegView) (w : Width) (v : BitVec 32) (es : List Event) (s : State) :
    (writeLanes r w v es s).ev = s.ev ++ es ++ [.regSet r ((s.gpr.writeLow r w v).read r)] := rfl
@[simp] theorem writeLanes_code (r : RegView) (w : Width) (v : BitVec 32) (es : List Event) (s : State) :
    (writeLanes r w v es s).code = s.code := rfl
@[simp] theorem writeLanes_widenDiag (r : RegView) (w : Width) (v : BitVec 32) (es : List Event) (s : State) :
    (writeLanes r w v es s).widenDiag = s.widenDiag := rfl
@[simp] theorem writeLanes_ioCalls (r : RegView) (w : Width) (v : BitVec 32) (es : List Event) (s : State) :
    (writeLanes r w v es s).ioCalls = s.ioCalls := rfl

@[simp] theorem storeCell_gpr (a : SymId) (c : MemCell) (d : Data) (es : List Event) (s : State) :
    (storeCell a c d es s).gpr = s.gpr := rfl
@[simp] theorem storeCell_sp (a : SymId) (c : MemCell) (d : Data) (es : List Event) (s : State) :
    (storeCell a c d es s).sp = s.sp := rfl
@[simp] theorem storeCell_bp (a : SymId) (c : MemCell) (d : Data) (es : List Event) (s : State) :
    (storeCell a c d es s).bp = s.bp := rfl
@[simp] theorem storeCell_ip (a : SymId) (c : MemCell) (d : Data) (es : List Event) (s : State) :
    (storeCell a c d es s).ip = s.ip := rfl
@[simp] theorem storeCell_flags (a : SymId) (c : MemCell) (d : Data) (es : List Event) (s : State) :
    (storeCell a c d es s).flags = s.flags := rfl
@[simp] theorem storeCell_st (a : SymId) (c : MemCell) (d : Data) (es : List Event) (s : State) :
    (storeCell a c d es s).st = s.st := rfl
@[simp] theorem storeCell_fault (a : SymId) (c : MemCell) (d : Data) (es : List Event) (s : State) :
    (storeCell a c d es s).fault = s.fault := rfl
@[simp] theorem storeCell_exitStatus (a : SymId) (c : MemCell) (d : Data) (es : List Event) (s : State) :
    (storeCell a c d es s).exitStatus = s.exitStatus := rfl
@[simp] theorem storeCell_alu (a : SymId) (c : MemCell) (d : Data) (es : List Event) (s : State) :
    (storeCell a c d es s).alu = s.alu := rfl
@[simp] theorem storeCell_mem (a : SymId) (c : MemCell) (d : Data) (es : List Event) (s : State) :
    (storeCell a c d es s).mem = s.mem.put a.toNat { c with data := d, written := true } := rfl
@[simp] theorem storeCell_ev (a : SymId) (c : MemCell) (d : Data) (es : List Event) (s : State) :
    (storeCell a c d es s).ev = s.ev ++ es ++ [.memSet a d.value] := rfl
@[simp] theorem storeCell_code (a : SymId) (c : MemCell) (d : Data) (es : List Event) (s : State) :
    (storeCell a c d es s).code = s.code := rfl
@[simp] theorem storeCell_widenDiag (a : SymId) (c : MemCell) (d : Data) (es : List Event) (s : State) :
    (storeCell a c d es s).widenDiag = s.widenDiag := rfl
@[simp] theorem storeCell_ioCalls (a : SymId) (c : MemCell) (d : Data) (es : List Event) (s : State) :
    (storeCell a c d es s).ioCalls = s.ioCalls := rfl

@[simp] theorem raise_gpr (f : Fatal) (s : State) :
    (raise f s).gpr = s.gpr := rfl
@[simp] theorem raise_sp (f : Fatal) (s : State) :
    (raise f s).sp = s.sp := rfl
@[simp] theorem raise_bp (f : Fatal) (s : State) :
    (raise f s).bp = s.bp := rfl
@[simp] theorem raise_ip (f : Fatal) (s : State) :
    (raise f s).ip = s.ip := rfl
@[simp] theorem raise_flags (f : Fatal) (s : State) :
    (raise f s).flags = s.flags := rfl
@[simp] theorem raise_st (f : Fatal) (s : State) :
    (raise f s).st = .halted .fault := rfl
@[simp] theorem raise_fault (f : Fatal) (s : State) :
    (raise f s).fault = ⟨f.cause, s.ip - 1, f.operand, f.info⟩ := rfl
@[simp] theorem raise_exitStatus (f : Fatal) (s : State) :
    (raise f s).exitStatus = s.exitStatus := rfl
@[simp] theorem raise_alu (f : Fatal) (s : State) :
    (raise f s).alu = s.alu := rfl
@[simp] theorem raise_mem (f : Fatal) (s : State) :
    (raise f s).mem = s.mem := rfl
@[simp] theorem raise_ev (f : Fatal) (s : State) :
    (raise f s).ev = s.ev := rfl
@[simp] theorem raise_code (f : Fatal) (s : State) :
    (raise f s).code = s.code := rfl
@[simp] theorem raise_widenDiag (f : Fatal) (s : State) :
    (raise f s).widenDiag = s.widenDiag := rfl
@[simp] theorem raise_ioCalls (f : Fatal) (s : State) :
    (raise f s).ioCalls = s.ioCalls := rfl

@[simp] theorem complete_gpr (s : State) :
    (complete s).gpr = s.gpr := rfl
@[simp] theorem complete_sp (s : State) :
    (complete s).sp = s.sp := rfl
@[simp] theorem complete_bp (s : State) :
    (complete s).bp = s.bp := rfl
@[simp] theorem complete_ip (s : State) :
    (complete s).ip = s.ip := rfl
@[simp] theorem complete_flags (s : State) :
    (complete s).flags = s.flags := rfl
@[simp] theorem complete_st (s : State) :
    (complete s).st = .fetching := rfl
@[simp] theorem complete_fault (s : State) :
    (complete s).fault = s.fault := rfl
@[simp] theorem complete_exitStatus (s : State) :
    (complete s).exitStatus = s.exitStatus := rfl
@[simp] theorem complete_alu (s : State) :
    (complete s).alu = s.alu := rfl
@[simp] theorem complete_mem (s : State) :
    (complete s).mem = s.mem := rfl
@[simp] theorem complete_ev (s : State) :
    (complete s).ev = s.ev := rfl
@[simp] theorem complete_code (s : State) :
    (complete s).code = s.code := rfl
@[simp] theorem complete_widenDiag (s : State) :
    (complete s).widenDiag = s.widenDiag := rfl
@[simp] theorem complete_ioCalls (s : State) :
    (complete s).ioCalls = s.ioCalls := rfl

@[simp] theorem setOverflowFlag_gpr (o : Bool) (s : State) :
    (setOverflowFlag o s).gpr = s.gpr := rfl
@[simp] theorem setOverflowFlag_sp (o : Bool) (s : State) :
    (setOverflowFlag o s).sp = s.sp := rfl
@[simp] theorem setOverflowFlag_bp (o : Bool) (s : State) :
    (setOverflowFlag o s).bp = s.bp := rfl
@[simp] theorem setOverflowFlag_ip (o : Bool) (s : State) :
    (setOverflowFlag o s).ip = s.ip := rfl
@[simp] theorem setOverflowFlag_flags (o : Bool) (s : State) :
    (setOverflowFlag o s).flags = s.flags.setOverflow o := rfl
@[simp] theorem setOverflowFlag_st (o : Bool) (s : State) :
    (setOverflowFlag o s).st = s.st := rfl
@[simp] theorem setOverflowFlag_fault (o : Bool) (s : State) :
    (setOverflowFlag o s).fault = s.fault := rfl
@[simp] theorem setOverflowFlag_exitStatus (o : Bool) (s : State) :
    (setOverflowFlag o s).exitStatus = s.exitStatus := rfl
@[simp] theorem setOverflowFlag_alu (o : Bool) (s : State) :
    (setOverflowFlag o s).alu = s.alu := rfl
@[simp] theorem setOverflowFlag_mem (o : Bool) (s : State) :
    (setOverflowFlag o s).mem = s.mem := rfl
@[simp] theorem setOverflowFlag_ev (o : Bool) (s : State) :
    (setOverflowFlag o s).ev = s.ev ++ overflowEvents o := rfl
@[simp] theorem setOverflowFlag_code (o : Bool) (s : State) :
    (setOverflowFlag o s).code = s.code := rfl
@[simp] theorem setOverflowFlag_widenDiag (o : Bool) (s : State) :
    (setOverflowFlag o s).widenDiag = s.widenDiag := rfl
@[simp] theorem setOverflowFlag_ioCalls (o : Bool) (s : State) :
    (setOverflowFlag o s).ioCalls = s.ioCalls := rfl

@[simp] theorem loadAlu_gpr (m : AluMode) (d e : BitVec 32) (s : State) :
    (loadAlu m d e s).gpr = s.gpr := rfl
@[simp] theorem loadAlu_sp (m : AluMode) (d e : BitVec 32) (s : State) :
    (loadAlu m d e s).sp = s.sp := rfl
@[simp] theorem loadAlu_bp (m : AluMode) (d e : BitVec 32) (s : State) :
    (loadAlu m d e s).bp = s.bp := rfl
@[simp] theorem loadAlu_ip (m : AluMode) (d e : BitVec 32) (s : State) :
    (loadAlu m d e s).ip = s.ip := rfl
@[simp] theorem loadAlu_flags (m : AluMode) (d e : BitVec 32) (s : State) :
    (loadAlu m d e s).flags = s.flags := rfl
@[simp] theorem loadAlu_st (m : AluMode) (d e : BitVec 32) (s : State) :
    (loadAlu m d e s).st = s.st := rfl
@[simp] theorem loadAlu_fault (m : AluMode) (d e : BitVec 32) (s : State) :
    (loadAlu m d e s).fault = s.fault := rfl
@[simp] theorem loadAlu_exitStatus (m : AluMode) (d e : BitVec 32) (s : State) :
    (loadAlu m d e s).exitStatus = s.exitStatus := rfl
@[simp] theorem loadAlu_alu (m : AluMode) (d e : BitVec 32) (s : State) :
    (loadAlu m d e s).alu = ⟨m, d, e⟩ := rfl
@[simp] theorem loadAlu_mem (m : AluMode) (d e : BitVec 32) (s : State) :
    (loadAlu m d e s).mem = s.mem := rfl
@[simp] theorem loadAlu_ev (m : AluMode) (d e : BitVec 32) (s : State) :
    (loadAlu m d e s).ev = s.ev := rfl
@[simp] theorem loadAlu_code (m : AluMode) (d e : BitVec 32) (s : State) :
    (loadAlu m d e s).code = s.code := rfl
@[simp] theorem loadAlu_widenDiag (m : AluMode) (d e : BitVec 32) (s : State) :
    (loadAlu m d e s).widenDiag = s.widenDiag := rfl
@[simp] theorem loadAlu_ioCalls (m : AluMode) (d e : BitVec 32) (s : State) :
    (loadAlu m d e s).ioCalls = s.ioCalls := rfl

end Sys2Proof.Machine
end

