-- ==== Sys2Proof/Laws/Memory.lean ====
section
/-! SUPPORT. Laws of the symbol table: read after write, other cells alone, and the canonical form, which every
operation keeps. -/

namespace Sys2Proof.Machine

@[simp] theorem cellAt_nil (a : Nat) : Memory.cellAt [] a = none := rfl

theorem cellAt_put_same (m : Memory) (a : Nat) (c : MemCell) : (m.put a c).cellAt a = some c := by
  induction m with
  | nil => simp [Memory.put, Memory.cellAt]
  | cons p m ih =>
    obtain ⟨b, d⟩ := p
    unfold Memory.put
    split
    · simp [Memory.cellAt]
    · split
      · simp [Memory.cellAt]
      · rename_i h; simp [Memory.cellAt, h, ih]

theorem cellAt_put_other (m : Memory) {a b : Nat} (c : MemCell) (h : b ≠ a) :
    (m.put a c).cellAt b = m.cellAt b := by
  induction m with
  | nil => simp [Memory.put, Memory.cellAt, h]
  | cons p m ih =>
    obtain ⟨e, d⟩ := p
    unfold Memory.put
    split
    · simp [Memory.cellAt, h]
    · split
      · rename_i h1; subst h1; simp [Memory.cellAt, h]
      · simp [Memory.cellAt, ih]

theorem cellAt_put (m : Memory) (a b : Nat) (c : MemCell) :
    (m.put a c).cellAt b = if b = a then some c else m.cellAt b := by
  by_cases h : b = a
  · subst h; simp [cellAt_put_same]
  · simp [h, cellAt_put_other m c h]

theorem mem_put {m : Memory} {a : Nat} {c : MemCell} {p : Nat × MemCell} (h : p ∈ m.put a c) :
    p = (a, c) ∨ p ∈ m := by
  induction m with
  | nil => simpa [Memory.put] using h
  | cons q m ih =>
    obtain ⟨b, d⟩ := q
    unfold Memory.put at h
    split at h
    · simpa using h
    · split at h
      · rcases List.mem_cons.1 h with h | h
        · exact .inl h
        · exact .inr (List.mem_cons_of_mem _ h)
      · rcases List.mem_cons.1 h with h | h
        · exact .inr (h ▸ List.mem_cons_self ..)
        · exact (ih h).imp_right (List.mem_cons_of_mem _)

/-- A write keeps the canonical form. -/
theorem wf_put {m : Memory} (h : m.wf) {a : Nat} (ha : a < 65536) (c : MemCell) : (m.put a c).wf := by
  refine ⟨?_, fun p hp => ?_⟩
  · have hs := h.1
    clear h
    induction m with
    | nil => simp [Memory.put]
    | cons q m ih =>
      obtain ⟨b, d⟩ := q
      obtain ⟨hq, hm⟩ := List.pairwise_cons.1 hs
      unfold Memory.put
      split
      · rename_i hab
        refine List.pairwise_cons.2 ⟨fun p hp => ?_, hs⟩
        rcases List.mem_cons.1 hp with rfl | hp
        · exact hab
        · exact Nat.lt_trans hab (hq p hp)
      · split
        · rename_i hab; subst hab
          exact List.pairwise_cons.2 ⟨hq, hm⟩
        · rename_i h1 h2
          refine List.pairwise_cons.2 ⟨fun p hp => ?_, ih hm⟩
          rcases mem_put hp with rfl | hp
          · show b < a; omega
          · exact hq p hp
  · rcases mem_put hp with rfl | hp
    · exact ha
    · exact h.2 p hp

theorem wf_nil : Memory.wf [] := by decide

/-- In canonical form an id below every listed one is not declared. -/
theorem cellAt_eq_none_of_lt {m : Memory} {a : Nat} (h : ∀ p ∈ m, a < p.1) : m.cellAt a = none := by
  induction m with
  | nil => rfl
  | cons q m ih =>
    obtain ⟨b, d⟩ := q
    have hb : a < b := h (b, d) (List.mem_cons_self ..)
    have hm := ih fun p hp => h p (List.mem_cons_of_mem _ hp)
    unfold Memory.cellAt
    rw [if_neg (by omega), hm]

/-- Two memories in canonical form that read alike are equal data. -/
theorem Memory.ext_cellAt {m n : Memory} (hm : m.wf) (hn : n.wf) (h : ∀ a, m.cellAt a = n.cellAt a) : m = n := by
  obtain ⟨hm, -⟩ := hm
  obtain ⟨hn, -⟩ := hn
  induction m generalizing n with
  | nil =>
    cases n with
    | nil => rfl
    | cons q n => have := h q.1; simp [Memory.cellAt] at this
  | cons p m ih =>
    obtain ⟨a, c⟩ := p
    obtain ⟨hp, hm'⟩ := List.pairwise_cons.1 hm
    cases n with
    | nil => have := h a; simp [Memory.cellAt] at this
    | cons q n =>
      obtain ⟨b, d⟩ := q
      obtain ⟨hq, hn'⟩ := List.pairwise_cons.1 hn
      have hab : a = b := by
        rcases Nat.lt_trichotomy a b with hlt | heq | hgt
        · have h1 := h a
          rw [cellAt_eq_none_of_lt (m := (b, d) :: n)] at h1
          · simp [Memory.cellAt] at h1
          · intro p hp'
            rcases List.mem_cons.1 hp' with rfl | hp'
            · exact hlt
            · exact Nat.lt_trans hlt (hq p hp')
        · exact heq
        · have h1 := h b
          rw [cellAt_eq_none_of_lt (m := (a, c) :: m)] at h1
          · simp [Memory.cellAt] at h1
          · intro p hp'
            rcases List.mem_cons.1 hp' with rfl | hp'
            · exact hgt
            · exact Nat.lt_trans hgt (hp p hp')
      subst hab
      have hcd : c = d := by simpa [Memory.cellAt] using h a
      subst hcd
      congr 1
      refine ih (fun e => ?_) hm' hn'
      by_cases he : e = a
      · subst he
        rw [cellAt_eq_none_of_lt hp, cellAt_eq_none_of_lt hq]
      · simpa [Memory.cellAt, he] using h e

end Sys2Proof.Machine
end

