-- ==== Sys2Proof/Laws/Registers.lean ====
section
/-! SUPPORT. Laws of the register file: lanes, views, and what a register write does to them. -/

namespace Sys2Proof.Machine

@[simp] theorem lanes_setLanes_same (g : GprFile) (f : Family) (l : Lanes) : (g.setLanes f l).lanes f = l := by
  cases f <;> rfl

theorem lanes_setLanes_other (g : GprFile) {f h : Family} (l : Lanes) (hf : h ≠ f) :
    (g.setLanes f l).lanes h = g.lanes h := by
  cases f <;> cases h <;> first | rfl | exact absurd rfl hf

@[simp] theorem setLanes_lanes (g : GprFile) (f : Family) : g.setLanes f (g.lanes f) = g := by
  cases f <;> rfl

theorem Lanes.ext_lane {l m : Lanes} (h : ∀ k, l.lane k = m.lane k) : l = m := by
  cases l; cases m
  have h0 := h 0; have h1 := h 1; have h2 := h 2; have h3 := h 3
  simp_all [Lanes.lane]

theorem GprFile.ext_lanes {g h : GprFile} (e : ∀ f, g.lanes f = h.lanes f) : g = h := by
  cases g; cases h
  have hA := e .A; have hB := e .B; have hC := e .C; have hD := e .D
  simp_all [GprFile.lanes]

/-- What a lane holds after the low `bytes(w)` lanes were written with `v` (10_state R15). -/
theorem lane_writeLow (l : Lanes) (w : Width) (v : BitVec 32) (k : Fin 4) :
    (l.writeLow w v).lane k = if k.val < w.bytes then v.extractLsb' (8 * k.val) 8 else l.lane k := by
  match k with
  | 0 => cases w <;> simp [Lanes.writeLow, Lanes.lane, Width.bytes]
  | 1 => cases w <;> simp [Lanes.writeLow, Lanes.lane, Width.bytes]
  | 2 => cases w <;> simp [Lanes.writeLow, Lanes.lane, Width.bytes]
  | 3 => cases w <;> simp [Lanes.writeLow, Lanes.lane, Width.bytes]

/-- Every lane of the file after a write through a view (10_state R15, R18). -/
theorem lanes_writeLow (g : GprFile) (r : RegView) (w : Width) (v : BitVec 32) (f : Family) (k : Fin 4) :
    ((g.writeLow r w v).lanes f).lane k =
      if f = r.fam ∧ k.val < w.bytes then v.extractLsb' (8 * k.val) 8 else (g.lanes f).lane k := by
  unfold GprFile.writeLow
  by_cases hf : f = r.fam
  · subst hf; simp [lane_writeLow]
  · simp [lanes_setLanes_other g _ hf, hf]

/-- A view of another family reads as before. -/
theorem read_writeLow_other (g : GprFile) (r q : RegView) (w : Width) (v : BitVec 32) (h : q.fam ≠ r.fam) :
    (g.writeLow r w v).read q = g.read q := by
  simp only [GprFile.read, GprFile.writeLow, lanes_setLanes_other g _ h]

/-- The bits of a 16-bit view, lane by lane (10_state R13, 20_memory R63). -/
theorem getLsbD_read_word (l : Lanes) (i : Nat) :
    (l.read .word).getLsbD i = if i < 8 then l.b0.getLsbD i else l.b1.getLsbD (i - 8) := by
  unfold Lanes.read
  rw [BitVec.getLsbD_setWidth, BitVec.getLsbD_append]
  by_cases h8 : i < 8
  · simp [h8, show i < 32 by omega]
  · by_cases h32 : i < 32
    · simp [h8, h32]
    · simp [h8, h32, BitVec.getLsbD_of_ge l.b1 (i - 8) (by omega)]

/-- The bits of a 32-bit view, lane by lane. -/
theorem getLsbD_read_dword (l : Lanes) (i : Nat) :
    (l.read .dword).getLsbD i =
      if i < 8 then l.b0.getLsbD i
      else if i < 16 then l.b1.getLsbD (i - 8)
      else if i < 24 then l.b2.getLsbD (i - 16)
      else l.b3.getLsbD (i - 24) := by
  unfold Lanes.read
  rw [BitVec.getLsbD_append, BitVec.getLsbD_append, BitVec.getLsbD_append]
  by_cases h8 : i < 8
  · simp [h8]
  · by_cases h16 : i < 16
    · simp [h8, h16, show i - 8 < 8 by omega]
    · by_cases h24 : i < 24
      · simp [h8, h16, h24, show ¬ (i - 8 < 8) by omega, show i - 16 < 8 by omega, show i - 8 - 8 = i - 16 by omega]
      · simp [h8, h16, h24, show ¬ (i - 8 < 8) by omega, show ¬ (i - 8 - 8 < 8) by omega, show i - 8 - 8 - 8 = i - 24 by omega]

/-- A whole view's lanes read back as the low bits of what was written to them. -/
theorem read_lanes_writeLow (l : Lanes) (v : BitVec 32) :
    (l.writeLow .word v).read .word = (v.setWidth 16).setWidth 32 ∧ (l.writeLow .dword v).read .dword = v := by
  constructor
  · apply BitVec.eq_of_getLsbD_eq
    intro i hi
    rw [getLsbD_read_word, BitVec.getLsbD_setWidth, BitVec.getLsbD_setWidth]
    simp only [Lanes.writeLow, BitVec.getLsbD_extractLsb']
    by_cases h8 : i < 8
    · simp [h8, hi, show i < 16 by omega]
    · by_cases h16 : i < 16
      · simp [h8, h16, hi, show i - 8 < 8 by omega, show 8 + (i - 8) = i by omega]
      · simp [h8, h16, show ¬ (i - 8 < 8) by omega]
  · apply BitVec.eq_of_getLsbD_eq
    intro i hi
    rw [getLsbD_read_dword]
    simp only [Lanes.writeLow, BitVec.getLsbD_extractLsb']
    split
    · simp [*]
    · split
      · simp [show i - 8 < 8 by omega, show 8 + (i - 8) = i by omega]
      · split
        · simp [show i - 16 < 8 by omega, show 16 + (i - 16) = i by omega]
        · simp [show i - 24 < 8 by omega, show 24 + (i - 24) = i by omega]

/-- The view just written whole reads as the low bits of what was written. -/
theorem read_writeLow_whole (g : GprFile) (r : RegView) (v : BitVec 32) :
    (g.writeLow r r.width v).read r = (Data.ofValue r.width v).value := by
  unfold GprFile.read GprFile.writeLow
  rw [lanes_setLanes_same]
  rcases r.eq_view with h | h <;> rw [h] <;> simp only [Family.width_view16, Family.width_view32]
  · exact (read_lanes_writeLow _ v).1
  · exact (read_lanes_writeLow _ v).2

/-- A 16-bit view is the low half of its 32-bit view (10_state R14). -/
theorem read_view16 (g : GprFile) (f : Family) :
    g.read f.view16 = ((g.read f.view32).setWidth 16).setWidth 32 := by
  simp only [GprFile.read, Family.fam_view16, Family.fam_view32, Family.width_view16, Family.width_view32]
  apply BitVec.eq_of_getLsbD_eq
  intro i hi
  rw [getLsbD_read_word, BitVec.getLsbD_setWidth, BitVec.getLsbD_setWidth, getLsbD_read_dword]
  by_cases h8 : i < 8
  · simp [h8, hi, show i < 16 by omega]
  · by_cases h16 : i < 16
    · simp [h8, h16, hi]
    · simp [h8, h16, BitVec.getLsbD_of_ge (g.lanes f).b1 (i - 8) (by omega)]

/-- A lane is a byte of the view that reads it. -/
theorem extract_read (l : Lanes) (w : Width) (hw : w ≠ .byte) (k : Fin 4) (hk : k.val < w.bytes) :
    (l.read w).extractLsb' (8 * k.val) 8 = l.lane k := by
  apply BitVec.eq_of_getLsbD_eq
  intro i hi
  rw [BitVec.getLsbD_extractLsb']
  cases w with
  | byte => exact absurd rfl hw
  | word =>
    rw [getLsbD_read_word]
    match k with
    | 0 => simp [hi, Lanes.lane]
    | 1 => simp [hi, Lanes.lane]
    | 2 => simp [Width.bytes] at hk
    | 3 => simp [Width.bytes] at hk
  | dword =>
    rw [getLsbD_read_dword]
    match k with
    | 0 => simp [hi, Lanes.lane]
    | 1 => simp [hi, Lanes.lane, show 8 + i < 16 by omega]
    | 2 => simp [hi, Lanes.lane, show ¬ (16 + i < 8) by omega, show 16 + i < 24 by omega]
    | 3 => simp [hi, Lanes.lane, show ¬ (24 + i < 8) by omega, show ¬ (24 + i < 16) by omega]

/-- A register's value fits its view. -/
theorem read_lt (g : GprFile) (r : RegView) : (g.read r).toNat < 2 ^ r.width.bits := by
  rcases r.eq_view with h | h <;> rw [h]
  · rw [read_view16]
    simp [Width.bits, Width.bytes]
    omega
  · simpa [Width.bits, Width.bytes] using (g.read r.fam.view32).isLt

/-- The number of a register read as a source operand is the register's value (40_decode R116). -/
@[simp] theorem value_regData (s : State) (r : RegView) : (s.regData r).value = s.reg r :=
  Data.value_ofValue_of_lt (read_lt s.gpr r)

@[simp] theorem width_regData (s : State) (r : RegView) : (s.regData r).width = r.width :=
  Data.width_ofValue _ _

/-- A register reads as its lanes say: a state whose file is the same gives the same values. -/
theorem reg_congr {s t : State} (h : t.gpr = s.gpr) (r : RegView) : t.reg r = s.reg r := by
  unfold State.reg; rw [h]

/-- Writing a family's own lanes back through its views changes nothing (10_state R19). -/
theorem writeLow_related (g : GprFile) {r q : RegView} (h : r.fam = q.fam) :
    g.writeLow r (q.width.narrower r.width) (g.read q) = g := by
  apply GprFile.ext_lanes
  intro f
  apply Lanes.ext_lane
  intro k
  rw [lanes_writeLow]
  split
  · rename_i hk
    obtain ⟨rfl, hk⟩ := hk
    rw [Width.bytes_narrower] at hk
    unfold GprFile.read
    rw [extract_read _ _ (by cases q <;> decide) k (Nat.lt_of_lt_of_le hk (Nat.min_le_left _ _)), h]
  · rfl

end Sys2Proof.Machine
end

