-- ==== Sys2Proof/Laws/Ops.lean ====
section
/-! SUPPORT. One lemma per shared operation: what it answers on each kind of state, cited instead of unfolding it. -/

namespace Sys2Proof.Machine

/-! ## Looking a cell up -/

theorem findCell_declared {op : FaultOperand} {a : SymId} {s : State} {c : MemCell}
    (h : s.mem.cellAt a.toNat = some c) : findCell op a s = .ok c := by
  simp [findCell, h]

theorem findCell_absent {op : FaultOperand} {a : SymId} {s : State} (h : s.mem.cellAt a.toNat = none) :
    findCell op a s = .error ⟨.undeclaredMemoryAccess, op, a.setWidth 32⟩ := by
  simp [findCell, h]

theorem findCell_ok {op : FaultOperand} {a : SymId} {s : State} {c : MemCell} (h : findCell op a s = .ok c) :
    s.mem.cellAt a.toNat = some c := by
  unfold findCell at h
  split at h
  · cases h
  · cases h; assumption

theorem readableCell_readable {op : FaultOperand} {a : SymId} {s : State} {c : MemCell}
    (h : s.mem.cellAt a.toNat = some c) (hr : c.readable) : readableCell op a s = .ok c := by
  rw [readableCell, findCell_declared h]
  exact if_pos hr

theorem readableCell_absent {op : FaultOperand} {a : SymId} {s : State} (h : s.mem.cellAt a.toNat = none) :
    readableCell op a s = .error ⟨.undeclaredMemoryAccess, op, a.setWidth 32⟩ := by
  rw [readableCell, findCell_absent h]

theorem readableCell_unwritten {op : FaultOperand} {a : SymId} {s : State} {c : MemCell}
    (h : s.mem.cellAt a.toNat = some c) (hw : c.written = false) (hz : c.data.value = 0) :
    readableCell op a s = .error ⟨.useOfUninitializedMemory, op, a.setWidth 32⟩ := by
  rw [readableCell, findCell_declared h]
  exact if_neg (by simp [MemCell.readable, hw, hz])

theorem readableCell_ok {op : FaultOperand} {a : SymId} {s : State} {c : MemCell}
    (h : readableCell op a s = .ok c) : s.mem.cellAt a.toNat = some c ∧ c.readable := by
  unfold readableCell at h
  split at h
  · cases h
  · rename_i d hd
    split at h
    · cases h
      exact ⟨findCell_ok hd, ‹_›⟩
    · cases h

theorem memRead_readable {op : FaultOperand} {a : SymId} {s : State} {c : MemCell}
    (h : s.mem.cellAt a.toNat = some c) (hr : c.readable) : memRead op a s = .ok c.data := by
  rw [memRead, readableCell_readable h hr]

theorem memRead_absent {op : FaultOperand} {a : SymId} {s : State} (h : s.mem.cellAt a.toNat = none) :
    memRead op a s = .error ⟨.undeclaredMemoryAccess, op, a.setWidth 32⟩ := by
  rw [memRead, readableCell_absent h]

theorem memRead_unwritten {op : FaultOperand} {a : SymId} {s : State} {c : MemCell}
    (h : s.mem.cellAt a.toNat = some c) (hw : c.written = false) (hz : c.data.value = 0) :
    memRead op a s = .error ⟨.useOfUninitializedMemory, op, a.setWidth 32⟩ := by
  rw [memRead, readableCell_unwritten h hw hz]

theorem memWrite_declared {op : FaultOperand} {a : SymId} {s : State} {c : MemCell} (d : Data)
    (h : s.mem.cellAt a.toNat = some c) :
    memWrite op a d s =
      .ok (storeCell a c (d.conv c.data.width) (widthDiags s.widenDiag (.sym a) c.data.width d) s) := by
  rw [memWrite, findCell_declared h]

theorem memWrite_absent {op : FaultOperand} {a : SymId} {s : State} (d : Data) (h : s.mem.cellAt a.toNat = none) :
    memWrite op a d s = .error ⟨.undeclaredMemoryAccess, op, a.setWidth 32⟩ := by
  rw [memWrite, findCell_absent h]

/-! ## Ending an instruction -/

@[simp] theorem finish_ok (t s : State) : finish (.ok t) s = .next (complete t) := rfl

@[simp] theorem finish_error (f : Fatal) (s : State) : finish (.error f) s = .next (raise f s) := rfl

/-! ## What an instruction may do: the effect of stage 5 -/

/-- How the symbol table may change: the canonical form, every declaration and every `written` bit are kept (20_memory R54). -/
def MemEvolves (m n : Memory) : Prop :=
  (m.wf → n.wf) ∧
    (∀ a, (n.cellAt a).map (fun c => (c.sect, c.data.width)) = (m.cellAt a).map (fun c => (c.sect, c.data.width))) ∧
    ∀ a c, m.cellAt a = some c → c.written = true → ∃ d, n.cellAt a = some d ∧ d.written = true

theorem MemEvolves.refl (m : Memory) : MemEvolves m m := ⟨id, fun _ => rfl, fun _ c h w => ⟨c, h, w⟩⟩

theorem MemEvolves.trans {m n o : Memory} (h : MemEvolves m n) (k : MemEvolves n o) : MemEvolves m o :=
  ⟨fun w => k.1 (h.1 w), fun a => (k.2.1 a).trans (h.2.1 a), fun a c hc hw =>
    let ⟨d, hd, hdw⟩ := h.2.2 a c hc hw
    k.2.2 a d hd hdw⟩

theorem MemEvolves.put {m : Memory} {a : SymId} {c : MemCell} {d : Data} (h : m.cellAt a.toNat = some c)
    (hd : d.width = c.data.width) : MemEvolves m (m.put a.toNat { c with data := d, written := true }) := by
  refine ⟨fun w => wf_put w a.isLt _, fun b => ?_, fun b e he hw => ?_⟩
  · rw [cellAt_put]
    split
    · subst b; simp [h, hd]
    · rfl
  · rw [cellAt_put]
    split
    · exact ⟨_, rfl, rfl⟩
    · exact ⟨e, he, hw⟩

/-- What stage 5 of any instruction that completes may do: registers, OF, the ALU scratch, cells and events change;
SP, BP, IP, the other flags, the run state, the records and the program do not. -/
structure Effect (s t : State) : Prop where
  sp : t.sp = s.sp
  bp : t.bp = s.bp
  ip : t.ip = s.ip
  flags : t.flags = { s.flags with OF := t.flags.OF }
  st : t.st = s.st
  fault : t.fault = s.fault
  exitStatus : t.exitStatus = s.exitStatus
  code : t.code = s.code
  widenDiag : t.widenDiag = s.widenDiag
  ev : s.ev <+: t.ev
  mem : MemEvolves s.mem t.mem

theorem Effect.refl (s : State) : Effect s s :=
  ⟨rfl, rfl, rfl, rfl, rfl, rfl, rfl, rfl, rfl, List.prefix_refl _, .refl _⟩

theorem Effect.trans {s t u : State} (h : Effect s t) (k : Effect t u) : Effect s u where
  sp := k.sp.trans h.sp
  bp := k.bp.trans h.bp
  ip := k.ip.trans h.ip
  flags := by rw [k.flags, h.flags]
  st := k.st.trans h.st
  fault := k.fault.trans h.fault
  exitStatus := k.exitStatus.trans h.exitStatus
  code := k.code.trans h.code
  widenDiag := k.widenDiag.trans h.widenDiag
  ev := h.ev.trans k.ev
  mem := h.mem.trans k.mem

theorem effect_emit (es : List Event) (s : State) : Effect s (emit es s) :=
  { Effect.refl s with ev := List.prefix_append _ _ }

theorem effect_writeLanes (r : RegView) (w : Width) (v : BitVec 32) (es : List Event) (s : State) :
    Effect s (writeLanes r w v es s) :=
  { Effect.refl s with ev := by simp [writeLanes] }

theorem effect_storeCell {a : SymId} {c : MemCell} {d : Data} (es : List Event) {s : State}
    (h : s.mem.cellAt a.toNat = some c) (hd : d.width = c.data.width) : Effect s (storeCell a c d es s) :=
  { Effect.refl s with ev := by simp [storeCell], mem := .put h hd }

theorem effect_loadAlu (m : AluMode) (d e : BitVec 32) (s : State) : Effect s (loadAlu m d e s) :=
  { Effect.refl s with }

theorem effect_setOverflowFlag (o : Bool) (s : State) : Effect s (setOverflowFlag o s) :=
  { Effect.refl s with flags := rfl, ev := List.prefix_append _ _ }

/-- A stage result is an effect, or one of the two memory faults, or (from no instruction) AluModeOff. -/
def Sound (s : State) : Except Fatal State → Prop
  | .ok t => Effect s t
  | .error f => f.cause = .undeclaredMemoryAccess ∨ f.cause = .useOfUninitializedMemory

theorem findCell_error {op : FaultOperand} {a : SymId} {s : State} {f : Fatal} (h : findCell op a s = .error f) :
    f.cause = .undeclaredMemoryAccess ∨ f.cause = .useOfUninitializedMemory := by
  unfold findCell at h
  split at h <;> cases h
  exact .inl rfl

theorem readableCell_error {op : FaultOperand} {a : SymId} {s : State} {f : Fatal}
    (h : readableCell op a s = .error f) :
    f.cause = .undeclaredMemoryAccess ∨ f.cause = .useOfUninitializedMemory := by
  unfold readableCell at h
  split at h
  · cases h; exact findCell_error ‹_›
  · split at h
    · cases h
    · cases h; exact .inr rfl

theorem memRead_error {op : FaultOperand} {a : SymId} {s : State} {f : Fatal} (h : memRead op a s = .error f) :
    f.cause = .undeclaredMemoryAccess ∨ f.cause = .useOfUninitializedMemory := by
  unfold memRead at h
  split at h
  · cases h; exact readableCell_error ‹_›
  · cases h

theorem srcData_error {o : Operand} {s : State} {f : Fatal} (h : srcData o s = .error f) :
    f.cause = .undeclaredMemoryAccess ∨ f.cause = .useOfUninitializedMemory := by
  cases o with
  | reg r => cases h
  | mem m => exact memRead_error h
  | imm d => cases h

theorem sound_memWrite (op : FaultOperand) (a : SymId) (d : Data) (s : State) : Sound s (memWrite op a d s) := by
  unfold memWrite
  split
  · exact findCell_error ‹_›
  · exact effect_storeCell _ (findCell_ok ‹_›) (Data.width_conv _ _)

theorem sound_movRegReg (rd rs : RegView) (s : State) : Effect s (movRegReg rd rs s) := by
  unfold movRegReg
  split
  · exact effect_emit _ _
  · split <;> exact effect_writeLanes ..

theorem sound_movToReg (rd : RegView) (o : Operand) (s : State) : Sound s (movToReg rd o s) := by
  unfold movToReg
  split
  · exact srcData_error ‹_›
  · exact effect_writeLanes ..

theorem sound_movToMem (m : SymId) (o : Operand) (s : State) : Sound s (movToMem m o s) := by
  unfold movToMem
  split
  · exact srcData_error ‹_›
  · exact sound_memWrite ..

/-- The execution of Add and Sub always has a result (42_add_sub R153). -/
theorem aluStage_add (d e : BitVec 32) (write : BitVec 32 → State → State) (s : State) :
    aluStage .add d e write s =
      .ok (setOverflowFlag (addOverflow d e)
        (write (BitVec.ofNat 32 (d.toNat + e.toNat)) (loadAlu .add d e s))) := rfl

theorem aluStage_sub (d e : BitVec 32) (write : BitVec 32 → State → State) (s : State) :
    aluStage .sub d e write s =
      .ok (setOverflowFlag (subOverflow d e)
        (write (BitVec.ofInt 32 ((d.toNat : Int) - e.toNat)) (loadAlu .sub d e s))) := rfl

theorem sound_aluStage {mode : AluMode} (hm : mode ≠ .off) (d e : BitVec 32) {write : BitVec 32 → State → State}
    {s : State} (hw : ∀ r, Effect (loadAlu mode d e s) (write r (loadAlu mode d e s))) :
    Sound s (aluStage mode d e write s) := by
  cases mode with
  | off => exact absurd rfl hm
  | add =>
    rw [aluStage_add]
    exact (effect_loadAlu ..).trans ((hw _).trans (effect_setOverflowFlag ..))
  | sub =>
    rw [aluStage_sub]
    exact (effect_loadAlu ..).trans ((hw _).trans (effect_setOverflowFlag ..))

theorem sound_aluToReg {mode : AluMode} (hm : mode ≠ .off) (rd : RegView) (o : Operand) (s : State) :
    Sound s (aluToReg mode rd o s) := by
  unfold aluToReg
  split
  · exact srcData_error ‹_›
  · exact sound_aluStage hm _ _ fun _ => effect_writeLanes ..

theorem sound_aluToMem {mode : AluMode} (hm : mode ≠ .off) (m : SymId) (o : Operand) (s : State) :
    Sound s (aluToMem mode m o s) := by
  unfold aluToMem
  split
  · exact srcData_error ‹_›
  · split
    · exact readableCell_error ‹_›
    · rename_i c hc
      exact sound_aluStage hm _ _ fun r =>
        effect_storeCell _ (readableCell_ok hc).1 (Data.width_ofValue _ _)

end Sys2Proof.Machine
end

