-- ==== Sys2Proof/Laws/Exec.lean ====
section
/-! SUPPORT. What executing an instruction can answer, said once for all instructions. -/

namespace Sys2Proof.Machine

theorem sound_syscallRead (s : State) : Sound s (syscallRead s) := by
  unfold syscallRead
  split
  · exact findCell_error ‹_›
  · rename_i c hc
    have h : memWrite .noOperand (syscallBuffer s) (ioReadData c.data.width s) { s with ioCalls := s.ioCalls + 1 } = _ :=
      memWrite_declared (ioReadData c.data.width s) (findCell_ok hc)
    rw [h]
    have h1 : Effect s { s with ioCalls := s.ioCalls + 1 } := { Effect.refl s with }
    exact h1.trans (effect_storeCell _ (findCell_ok hc) (Data.width_conv _ _))

theorem sound_syscallWrite (s : State) : Sound s (syscallWrite s) := by
  unfold syscallWrite
  split
  · exact memRead_error ‹_›
  · exact effect_emit _ _

/-- The three ways an instruction ends (40_decode R121): it completes with an effect, it ends in one of the two memory
faults with nothing else changed, or it is the Syscall that exits. -/
inductive Ends (s : State) : State → Prop where
  | completes {u : State} (h : Effect s u) : Ends s (complete u)
  | faults {f : Fatal} (h : f.cause = .undeclaredMemoryAccess ∨ f.cause = .useOfUninitializedMemory) :
      Ends s (raise f s)
  | exits : Ends s { s with exitStatus := s.reg .bx, st := .halted .exit }

theorem ends_finish {s : State} {r : Except Fatal State} (h : Sound s r) : ∃ t, finish r s = .next t ∧ Ends s t := by
  cases r with
  | ok u => exact ⟨_, rfl, .completes h⟩
  | error f => exact ⟨_, rfl, .faults h⟩

/-- Every instruction answers a next state, in one of the three ways. -/
theorem exec_ends (i : Instr) (s : State) : ∃ t, exec i s = .next t ∧ Ends s t := by
  have ha : AluMode.add ≠ .off := by decide
  have hs : AluMode.sub ≠ .off := by decide
  cases i with
  | movRR rd rs => exact ends_finish (r := .ok _) (sound_movRegReg rd rs s)
  | movRM rd m => exact ends_finish (sound_movToReg rd (.mem m) s)
  | movRI rd d => exact ends_finish (sound_movToReg rd (.imm d) s)
  | movMR m rs => exact ends_finish (sound_movToMem m (.reg rs) s)
  | movMI m d => exact ends_finish (sound_movToMem m (.imm d) s)
  | addRR rd rs => exact ends_finish (sound_aluToReg ha rd (.reg rs) s)
  | addRM rd m => exact ends_finish (sound_aluToReg ha rd (.mem m) s)
  | addRI rd d => exact ends_finish (sound_aluToReg ha rd (.imm d) s)
  | addMR m rs => exact ends_finish (sound_aluToMem ha m (.reg rs) s)
  | addMI m d => exact ends_finish (sound_aluToMem ha m (.imm d) s)
  | subRR rd rs => exact ends_finish (sound_aluToReg hs rd (.reg rs) s)
  | subRM rd m => exact ends_finish (sound_aluToReg hs rd (.mem m) s)
  | subRI rd d => exact ends_finish (sound_aluToReg hs rd (.imm d) s)
  | subMR m rs => exact ends_finish (sound_aluToMem hs m (.reg rs) s)
  | subMI m d => exact ends_finish (sound_aluToMem hs m (.imm d) s)
  | syscall =>
    show ∃ t, execSyscall s = .next t ∧ Ends s t
    unfold execSyscall
    split
    · exact ⟨_, rfl, .exits⟩
    · split
      · exact ends_finish (sound_syscallRead s)
      · split
        · exact ends_finish (sound_syscallWrite s)
        · exact ends_finish (r := .ok _) (effect_emit _ s)

/-- The inversion of `exec`. -/
theorem ends_of_exec {i : Instr} {s t : State} (h : exec i s = .next t) : Ends s t := by
  obtain ⟨u, hu, he⟩ := exec_ends i s
  rw [hu] at h
  cases h
  exact he

end Sys2Proof.Machine
end

