-- ==== Sys2Proof/Laws/Loader.lean ====
section
/-! SUPPORT. The symbol table a program's declarations give. -/

namespace Sys2Proof.Machine

/-- The table of any list of declarations has the canonical form. -/
theorem wf_declare : ∀ ds : List (SymId × MemCell), (declare ds).wf
  | [] => wf_nil
  | (a, c) :: ds => wf_put (wf_declare ds) a.isLt c

/-- An id declared once has its declared cell. -/
theorem cellAt_declare_of_mem : ∀ {ds : List (SymId × MemCell)} {m : SymId} {c : MemCell},
    (ds.map (fun x => x.1)).Nodup → (m, c) ∈ ds → (declare ds).cellAt m.toNat = some c
  | (a, e) :: ds, m, c, h, hm => by
    simp only [List.map_cons, List.nodup_cons] at h
    unfold declare
    rw [cellAt_put]
    rcases List.mem_cons.1 hm with hd | hd
    · cases hd; simp
    · have hne : m ≠ a := fun he => h.1 (he ▸ List.mem_map_of_mem (f := fun x : SymId × MemCell => x.1) hd)
      rw [if_neg fun he => hne (BitVec.eq_of_toNat_eq he), cellAt_declare_of_mem h.2 hd]

/-- An id that is not declared has no cell. -/
theorem cellAt_declare_of_not_mem : ∀ {ds : List (SymId × MemCell)} {m : SymId},
    (∀ c, (m, c) ∉ ds) → (declare ds).cellAt m.toNat = none
  | [], _, _ => rfl
  | (a, e) :: ds, m, h => by
    unfold declare
    have hne : m ≠ a := fun he => h e (he ▸ List.mem_cons_self ..)
    rw [cellAt_put, if_neg fun he => hne (BitVec.eq_of_toNat_eq he)]
    exact cellAt_declare_of_not_mem fun c hc => h c (List.mem_cons_of_mem _ hc)

end Sys2Proof.Machine
end

