-- ==== Sys2Proof/Laws/PerInstr.lean ====
section
/-! SUPPORT. Families of statements made instruction by instruction. -/

namespace Sys2Proof.Laws.FormWellFormed

/-- The abstract instruction of every form passes the decoder's named conditions (30_encoding R89 to R91). -/
def Statement (i : Instr) : Prop := i.toRaw.wellFormed = true

theorem movRR (rd rs : RegView) : Statement (.movRR rd rs) := rfl
theorem movRM (rd : RegView) (m : SymId) : Statement (.movRM rd m) := rfl
theorem movRI (rd : RegView) (d : Data) : Statement (.movRI rd d) := rfl
theorem movMR (m : SymId) (rs : RegView) : Statement (.movMR m rs) := rfl
theorem movMI (m : SymId) (d : Data) : Statement (.movMI m d) := rfl
theorem addRR (rd rs : RegView) : Statement (.addRR rd rs) := rfl
theorem addRM (rd : RegView) (m : SymId) : Statement (.addRM rd m) := rfl
theorem addRI (rd : RegView) (d : Data) : Statement (.addRI rd d) := rfl
theorem addMR (m : SymId) (rs : RegView) : Statement (.addMR m rs) := rfl
theorem addMI (m : SymId) (d : Data) : Statement (.addMI m d) := rfl
theorem subRR (rd rs : RegView) : Statement (.subRR rd rs) := rfl
theorem subRM (rd : RegView) (m : SymId) : Statement (.subRM rd m) := rfl
theorem subRI (rd : RegView) (d : Data) : Statement (.subRI rd d) := rfl
theorem subMR (m : SymId) (rs : RegView) : Statement (.subMR m rs) := rfl
theorem subMI (m : SymId) (d : Data) : Statement (.subMI m d) := rfl
theorem syscall : Statement .syscall := rfl

end Sys2Proof.Laws.FormWellFormed
end

