-- ==== Sys2Proof/Laws/Step.lean ====
section
/-! SUPPORT. What fetching and a step can answer, said once for all states. -/

namespace Sys2Proof.Machine

theorem toNat_succ {s : State} (h : s.ip.toNat < Config.maxInstr) : (s.ip + 1).toNat = s.ip.toNat + 1 := by
  have : s.ip.toNat < 65535 := h
  rw [BitVec.toNat_add]
  simp
  omega

theorem ip_lt_of_fetched {s : State} {w : W96} (hw : s.code[s.ip.toNat]? = some w) : s.ip.toNat < s.code.length :=
  (List.getElem?_eq_some_iff.1 hw).1

/-- Fetch of an instruction (40_decode R111). -/
theorem fetch_word {s : State} {w : W96} (hl : s.code.length ≤ Config.maxInstr)
    (hw : s.code[s.ip.toNat]? = some w) : fetch s = .next (afterFetch w s) := by
  have := ip_lt_of_fetched hw
  unfold fetch
  rw [if_neg (by omega), if_neg (by omega), hw]

/-- Fetch at the end of the program (40_decode R111). -/
theorem fetch_end {s : State} (hl : s.code.length ≤ Config.maxInstr) (he : s.ip.toNat = s.code.length) :
    fetch s = .next { s with st := .halted .endOfCode } := by
  unfold fetch
  rw [if_neg (by omega), if_pos he]

/-- The word fetched is the one the second half executes. -/
theorem fetchedWord_afterFetch {s : State} {w : W96} (hl : s.code.length ≤ Config.maxInstr)
    (hw : s.code[s.ip.toNat]? = some w) : fetchedWord (wordOpc w) (afterFetch w s) = some w := by
  have hlt := ip_lt_of_fetched hw
  have hs := toNat_succ (s := s) (by omega)
  unfold fetchedWord
  have h0 : (afterFetch w s).ip ≠ 0 := by
    intro h
    have : (s.ip + 1).toNat = 0 := by rw [show s.ip + 1 = 0 from h]; rfl
    omega
  rw [if_neg h0]
  show (s.code[(s.ip + 1).toNat - 1]?).filter _ = some w
  rw [hs, Nat.add_sub_cancel, hw]
  simp

/-- A step from Fetching at a word is the execution of that word after the fetch (40_decode R111, R112, R123). -/
theorem step_word {s : State} {w : W96} (hst : s.st = .fetching) (hl : s.code.length ≤ Config.maxInstr)
    (hw : s.code[s.ip.toNat]? = some w) : step s = executeWord w (afterFetch w s) := by
  unfold step
  rw [hst]
  show fetchExecute s = _
  unfold fetchExecute
  rw [fetch_word hl hw]
  show decodeExecute (wordOpc w) (afterFetch w s) = _
  unfold decodeExecute
  rw [fetchedWord_afterFetch hl hw]

theorem step_end {s : State} (hst : s.st = .fetching) (hl : s.code.length ≤ Config.maxInstr)
    (he : s.ip.toNat = s.code.length) : step s = .next { s with st := .halted .endOfCode } := by
  unfold step
  rw [hst]
  show fetchExecute s = _
  unfold fetchExecute
  rw [fetch_end hl he]

/-- Executing a word answers a next state: an instruction's, or the entry of the decoder's fatal error. -/
theorem executeWord_ends (w : W96) (s : State) :
    ∃ t, executeWord w s = .next t ∧
      ((∃ i, decodeWord w = .ok i ∧ Ends s t) ∨ ∃ e, decodeWord w = .error e ∧ t = raise e.fatal s) := by
  unfold executeWord
  cases h : decodeWord w with
  | ok i =>
    obtain ⟨t, ht, he⟩ := exec_ends i s
    exact ⟨t, ht, .inl ⟨i, rfl, he⟩⟩
  | error e => exact ⟨_, rfl, .inr ⟨e, rfl, rfl⟩⟩

/-- The ways a step can answer a next state. -/
inductive Steps (s : State) : State → Prop where
  | run (h : s.st = .idle) : Steps s { s with st := .fetching }
  | endOfCode (h : s.st = .fetching) (hl : s.code.length ≤ Config.maxInstr) (he : s.ip.toNat = s.code.length) :
      Steps s { s with st := .halted .endOfCode }
  | word {w : W96} {t : State} (h : s.st = .fetching) (hl : s.code.length ≤ Config.maxInstr)
      (hw : s.code[s.ip.toNat]? = some w) (he : executeWord w (afterFetch w s) = .next t) : Steps s t
  | half {opc : BitVec 8} {w : W96} {t : State} (h : s.st = .decoding opc) (hw : fetchedWord opc s = some w)
      (he : executeWord w s = .next t) : Steps s t

/-- The inversion of `step`. -/
theorem steps_of_step {s t : State} (h : step s = .next t) : Steps s t := by
  cases hst : s.st with
  | idle =>
    unfold step runRequest at h
    rw [hst] at h
    cases h
    exact .run hst
  | fetching =>
    by_cases hl : s.code.length ≤ Config.maxInstr
    · by_cases he : s.ip.toNat = s.code.length
      · rw [step_end hst hl he] at h
        cases h
        exact .endOfCode hst hl he
      · cases hw : s.code[s.ip.toNat]? with
        | some w =>
          rw [step_word hst hl hw] at h
          exact .word hst hl hw h
        | none =>
          unfold step fetchExecute fetch at h
          rw [hst] at h
          simp [Nat.not_lt.2 hl, he, hw] at h
    · unfold step fetchExecute fetch at h
      rw [hst] at h
      simp [Nat.lt_of_not_le hl] at h
  | decoding opc =>
    unfold step decodeExecute at h
    rw [hst] at h
    cases hw : fetchedWord opc s with
    | none => simp [hw] at h
    | some w =>
      simp only [hw] at h
      exact .half hst hw h
  | halted r =>
    unfold step at h
    rw [hst] at h
    cases h

/-- An instruction changes no program counter (40_decode R111: the fetch has moved it). -/
theorem Ends.ip_eq {s t : State} (h : Ends s t) : t.ip = s.ip := by
  cases h with
  | completes h => exact h.ip
  | faults _ => rfl
  | exits => rfl

/-- The placed word stands at its index. -/
theorem getElem?_placeWord (k : Nat) (w : W96) (code : List W96) : (placeWord k w code)[k]? = some w := by
  unfold placeWord
  split
  · simp [*]
  · rw [List.getElem?_append_right (by simp; omega)]
    simp
    rw [show k - (code.length + (k - code.length)) = 0 by omega]
    rfl

theorem length_placeWord (k : Nat) (w : W96) (code : List W96) :
    (placeWord k w code).length = max code.length (k + 1) := by
  unfold placeWord
  split
  · simp; omega
  · simp; omega

end Sys2Proof.Machine
end

