-- ==== Sys2Proof/Tests/Slice0.lean ====
section
/-! SUPPORT. The model's own tests: expected values are those of the vectors S<n>, T<n> and P<n> of 95_test_vectors, or of
the examples of the instruction rules, never the model's own answers; and for each statement with hypotheses a concrete
state and operands that meet them. -/

namespace Sys2Proof.Tests

open Sys2Proof.Machine

/-! ## Helpers -/

/-- The reset state with the four families' lanes set. -/
def regs (A B C D : Lanes) : State := { State.reset with gpr := ⟨A, B, C, D⟩ }

/-- The state with a cell declared. -/
def withCell (a : Nat) (c : MemCell) (s : State) : State := { s with mem := s.mem.put a c }

/-- The state about to fetch the only word of its program. -/
def loaded (w : W96) (s : State) : State := { s with code := [w], st := .fetching }

/-- The state one step leads to. -/
def after (s : State) : Option State :=
  match step s with
  | .next t => some t
  | _ => none

/-- The lanes of a family, the events and OF after one step. -/
def seen (f : Family) (s : State) : Option (Lanes × List Event × Bool) :=
  (after s).map fun t => (t.gpr.lanes f, t.ev, t.flags.OF)

/-- A cell, the events and OF after one step. -/
def seenCell (a : Nat) (s : State) : Option (Option MemCell × List Event × Bool) :=
  (after s).map fun t => (t.mem.cellAt a, t.ev, t.flags.OF)

/-- The fault record, the run state, IP and the events after one step. -/
def seenFault (s : State) : Option (FaultRecord × RunState × BitVec 16 × List Event) :=
  (after s).map fun t => (t.fault, t.st, t.ip, t.ev)

/-- The lanes (EF, AB, 34, 12) and (11, 22, 33, 44) of the vectors of section 3. -/
def lanesA : Lanes := ⟨0xEF, 0xAB, 0x34, 0x12⟩
def lanesC : Lanes := ⟨0x11, 0x22, 0x33, 0x44⟩
def sectionThree : State := regs lanesA .zero lanesC .zero

/-! ## Well-formed abstract instructions: one ill-formed term for each check -/

theorem test_wellFormed_accepts :
    RawInstr.wellFormed ⟨1, 2, [.reg .ecx, .reg .ax]⟩ = true ∧ RawInstr.wellFormed ⟨4, 0, []⟩ = true := by decide

theorem test_wellFormed_opcode : RawInstr.wellFormed ⟨5, 2, [.reg .ax, .reg .bx]⟩ = false := by decide

theorem test_wellFormed_arity : RawInstr.wellFormed ⟨1, 3, [.reg .ax, .reg .bx]⟩ = false := by decide

theorem test_wellFormed_list : RawInstr.wellFormed ⟨1, 2, [.reg .ax]⟩ = false := by decide

theorem test_wellFormed_destination : RawInstr.wellFormed ⟨1, 2, [.imm (.word 5), .reg .ax]⟩ = false := by decide

theorem test_wellFormed_pair : RawInstr.wellFormed ⟨2, 2, [.mem 0, .mem 1]⟩ = false := by decide

/-! ## Decoding: a word of every form, from the examples of 41_mov, 42_add_sub and 43_syscall -/

theorem test_decode_mov :
    decodeWord 0x012020000000062000000000#96 = .ok (.movRR .ecx .ax) ∧
      decodeWord 0x012020000000014000000000#96 = .ok (.movRM .bx 0) ∧
      decodeWord 0x01202000000000880000012C#96 = .ok (.movRI .ax (.word 300)) ∧
      decodeWord 0x012040000000012000000002#96 = .ok (.movMR 1 .cx) ∧
      decodeWord 0x012040000000029012345678#96 = .ok (.movMI 2 (.dword 0x12345678)) := by decide

theorem test_decode_add :
    decodeWord 0x022020000000042000000005#96 = .ok (.addRR .eax .ebx) ∧
      decodeWord 0x022020000000004000000000#96 = .ok (.addRM .ax 0) ∧
      decodeWord 0x022020000000008000000001#96 = .ok (.addRI .ax (.byte 1)) ∧
      decodeWord 0x022040000000052000000000#96 = .ok (.addMR 5 .ax) ∧
      decodeWord 0x022040000000038000000001#96 = .ok (.addMI 3 (.byte 1)) := by decide

theorem test_decode_sub :
    decodeWord 0x032020000000022000000001#96 = .ok (.subRR .cx .bx) ∧
      decodeWord 0x032020000000024000000077#96 = .ok (.subRM .cx 0x77) ∧
      decodeWord 0x032020000000049080000000#96 = .ok (.subRI .eax (.dword 0x80000000)) ∧
      decodeWord 0x032040000000012000000001#96 = .ok (.subMR 1 .bx) ∧
      decodeWord 0x032040000000008800000100#96 = .ok (.subMI 0 (.word 0x100)) := by decide

theorem test_decode_syscall : decodeWord 0x040000000000000000000000#96 = .ok .syscall := by decide

/-- T74 to T83: one word for each check of 30_encoding R87. -/
theorem test_decode_ill_formed :
    [0x012120000000002000000001#96, 0x012020000000082000000001#96, 0x012020000000006000000000#96,
      0x012020000000009800000000#96, 0x012020000000008000000100#96, 0x040000000000000000000001#96,
      0x011020000000002000000001#96, 0xFF2020000000092000000001#96, 0x012020000000004000010001#96,
      0x012020000000002800000001#96].all (fun w => decodeWord w == .error .illegalEncoding) = true := by decide

/-- The reserved bits of a slot, the one check of R87 that T74 to T83 leave out: `Mov AX,BX` with bit 32 set. -/
theorem test_decode_slot_reserved : decodeWord 0x012020000000002100000001#96 = .error .illegalEncoding := by decide

/-- T60 to T64. -/
theorem test_decode_arity :
    decodeWord 0x011020000000000000000000#96 = .error (.wrongArity 1) ∧
      decodeWord 0x010000000000000000000000#96 = .error (.wrongArity 0) ∧
      decodeWord 0x013020000000002000000001#96 = .error (.wrongArity 3) ∧
      decodeWord 0x041020000000000000000000#96 = .error (.wrongArity 1) ∧
      decodeWord 0x02F020000000002000000001#96 = .error (.wrongArity 15) := by decide

/-- T65 to T69. -/
theorem test_decode_addressing :
    decodeWord 0x012088000000052000000000#96 = .error .immediateDestination ∧
      decodeWord 0x012080000000018000000002#96 = .error .immediateDestination ∧
      decodeWord 0x012080000000014000000000#96 = .error .immediateDestination ∧
      decodeWord 0x022040000000004000000001#96 = .error .memoryToMemory ∧
      decodeWord 0x032040000000004000000001#96 = .error .memoryToMemory := by decide

/-- T70 to T73. -/
theorem test_decode_opcode :
    decodeWord 0x000000000000000000000000#96 = .error (.unimplementedOpcode 0) ∧
      decodeWord 0x052020000000002000000001#96 = .error (.unimplementedOpcode 5) ∧
      decodeWord 0xFF3020000000002000000001#96 = .error (.unimplementedOpcode 0xFF) ∧
      decodeWord 0x002020000000002000000001#96 = .error (.unimplementedOpcode 0) := by decide

/-- T62, T68, T72 and T74 run: the record of each fault. -/
theorem test_fault_records :
    seenFault (loaded 0x013020000000002000000001#96 State.reset) =
        some (⟨.wrongArity, 0, .noOperand, 3⟩, .halted .fault, 1, []) ∧
      seenFault (loaded 0x022040000000004000000001#96 State.reset) =
        some (⟨.illegalAddressingMode, 0, .operand1, 0⟩, .halted .fault, 1, []) ∧
      seenFault (loaded 0xFF3020000000002000000001#96 State.reset) =
        some (⟨.unimplementedOpcode, 0, .noOperand, 0xFF⟩, .halted .fault, 1, []) ∧
      seenFault (loaded 0x012120000000002000000001#96 State.reset) =
        some (⟨.illegalEncoding, 0, .noOperand, 0⟩, .halted .fault, 1, []) :=
  ⟨by decide, by decide, by decide, by decide⟩

/-! ## Mov: one step each -/

/-- T12. -/
theorem test_movRR_unrelated_widens :
    seen .C (loaded 0x012020000000062000000000#96 sectionThree) =
      some (⟨0xEF, 0xAB, 0, 0⟩, [.regSet .ecx 0xABEF], false) := by decide

/-- T11 and T16: the related pair and the self-move. -/
theorem test_movRR_same_family :
    seen .A (loaded 0x012020000000002000000004#96 sectionThree) =
        some (lanesA, [.diagTrunc (.reg .ax) 0x1234, .regSet .ax 0xABEF], false) ∧
      seen .A (loaded 0x012020000000002000000000#96 sectionThree) =
        some (lanesA, [.diagSelfMove .ax], false) := by decide

/-- T20. -/
theorem test_movRM_byte_cell :
    seen .A (loaded 0x012020000000044000000003#96
        (withCell 3 ⟨.data, .byte 1, false⟩ (regs ⟨0xFF, 0xFF, 0xFF, 0xFF⟩ .zero .zero .zero))) =
      some (⟨0x01, 0xFF, 0xFF, 0xFF⟩, [.regSet .eax 0xFFFFFF01], false) := by decide

/-- T28. -/
theorem test_movRM_uninitialized :
    seenFault (loaded 0x012020000000014000000000#96 (withCell 0 ⟨.data, .word 0, false⟩ State.reset)) =
      some (⟨.useOfUninitializedMemory, 0, .operand1, 0⟩, .halted .fault, 1, []) := by decide

/-- T3. -/
theorem test_movRI_truncates :
    seen .A (loaded 0x012020000000009012345678#96 (regs ⟨0, 0, 0xCD, 0xAB⟩ .zero .zero .zero)) =
      some (⟨0x78, 0x56, 0xCD, 0xAB⟩, [.diagTrunc (.reg .ax) 0x1234, .regSet .ax 0x5678], false) := by decide

/-- T1 with WIDEN_DIAG = true. -/
theorem test_movRI_byte_keeps_high_lane :
    seen .A (loaded 0x01202000000000800000007F#96
        { regs lanesA .zero .zero .zero with widenDiag := true }) =
      some (⟨0x7F, 0xAB, 0x34, 0x12⟩, [.diagWiden (.reg .ax), .regSet .ax 0xAB7F], false) := by decide

/-- T24. -/
theorem test_movMR_zero_extends :
    seenCell 4 (loaded 0x012040000000042000000000#96
        (withCell 4 ⟨.data, .dword 0xFFFFFFFF, false⟩ (regs ⟨0x34, 0x12, 0xFF, 0xFF⟩ .zero .zero .zero))) =
      some (some ⟨.data, .dword 0x1234, true⟩, [.memSet 4 0x1234], false) := by decide

/-- T29. -/
theorem test_movMR_undeclared :
    seenFault (loaded 0x012040000000052000000000#96 (regs ⟨5, 0, 0, 0⟩ .zero .zero .zero)) =
      some (⟨.undeclaredMemoryAccess, 0, .operand0, 5⟩, .halted .fault, 1, []) := by decide

/-- T27. -/
theorem test_movMI_truncates :
    seenCell 2 (loaded 0x012040000000029012345678#96 (withCell 2 ⟨.data, .word 1, false⟩ State.reset)) =
      some (some ⟨.data, .word 0x5678, true⟩, [.diagTrunc (.sym 2) 0x1234, .memSet 2 0x5678], false) := by decide

/-- T26: a store makes no uninitialised check. -/
theorem test_movMI_zero_cell :
    seenCell 0 (loaded 0x012040000000008000000000#96 (withCell 0 ⟨.data, .word 0, false⟩ State.reset)) =
      some (some ⟨.data, .word 0, true⟩, [.memSet 0 0], false) := by decide

/-! ## Add and Sub: one step each -/

/-- T45. -/
theorem test_addRR_carry :
    seen .A (loaded 0x022020000000042000000005#96 (regs ⟨0xFF, 0xFF, 0xFF, 0xFF⟩ ⟨1, 0, 0, 0⟩ .zero .zero)) =
      some (.zero, [.regSet .eax 0, .ofSet], true) := by decide

/-- T49b. -/
theorem test_addRR_narrow_destination :
    seen .A (loaded 0x022020000000002000000004#96 (regs ⟨0x00, 0x80, 0x01, 0⟩ .zero .zero .zero)) =
      some (⟨0, 0, 1, 0⟩, [.diagTrunc (.reg .ax) 2, .regSet .ax 0], false) := by decide

/-- T49k: the source cell is checked. -/
theorem test_addRM_uninitialized :
    seenFault (loaded 0x022020000000004000000000#96 (withCell 0 ⟨.data, .word 0, false⟩ State.reset)) =
      some (⟨.useOfUninitializedMemory, 0, .operand1, 0⟩, .halted .fault, 1, []) := by decide

/-- 42_add_sub R157: AX = 300 and a cell of 10 added by hand. -/
theorem test_addRM_sum :
    seen .A (loaded 0x022020000000004000000000#96
        (withCell 0 ⟨.data, .word 10, false⟩ (regs ⟨0x2C, 0x01, 0, 0⟩ .zero .zero .zero))) =
      some (⟨0x36, 0x01, 0, 0⟩, [.regSet .ax 310], false) := by decide

/-- T47: OF, set before, is cleared. -/
theorem test_addRI_wraps_narrow :
    seen .A (loaded 0x022020000000008000000001#96
        { regs ⟨0xFF, 0xFF, 0xCD, 0xAB⟩ .zero .zero .zero with flags := { Flags.clear with OF := true } }) =
      some (⟨0, 0, 0xCD, 0xAB⟩, [.diagTrunc (.reg .ax) 1, .regSet .ax 0], false) := by decide

/-- T49e: signed overflow is not OF. -/
theorem test_addRI_signed_overflow :
    seen .A (loaded 0x02202000000004907FFFFFFF#96 (regs ⟨1, 0, 0, 0⟩ .zero .zero .zero)) =
      some (⟨0, 0, 0, 0x80⟩, [.regSet .eax 0x80000000], false) := by decide

/-- 42_add_sub R159. -/
theorem test_addMR_sum :
    seenCell 0 (loaded 0x022040000000002000000000#96
        (withCell 0 ⟨.data, .word 10, false⟩ (regs ⟨0x2C, 0x01, 0, 0⟩ .zero .zero .zero))) =
      some (some ⟨.data, .word 310, true⟩, [.memSet 0 310], false) := by decide

/-- T49j. -/
theorem test_addMR_uninitialized_bss :
    seenFault (loaded 0x022040000000052000000000#96
        (withCell 5 ⟨.bss, .word 0, false⟩ (regs ⟨1, 0, 0, 0⟩ .zero .zero .zero))) =
      some (⟨.useOfUninitializedMemory, 0, .operand0, 5⟩, .halted .fault, 1, []) := by decide

/-- T49h. -/
theorem test_addMI_byte_cell :
    seenCell 3 (loaded 0x022040000000038000000001#96 (withCell 3 ⟨.data, .byte 0xFF, false⟩ State.reset)) =
      some (some ⟨.data, .byte 0, true⟩, [.diagTrunc (.sym 3) 1, .memSet 3 0], false) := by decide

/-- 42_add_sub R160. -/
theorem test_addMI_carry :
    seenCell 0 (loaded 0x022040000000008000000001#96 (withCell 0 ⟨.data, .dword 0xFFFFFFFF, false⟩ State.reset)) =
      some (some ⟨.data, .dword 0, true⟩, [.memSet 0 0, .ofSet], true) := by decide

/-- 42_add_sub R161, first example: destination minus source. -/
theorem test_subRR_order :
    seen .C (loaded 0x032020000000022000000001#96 (regs .zero ⟨10, 0, 0, 0⟩ ⟨0x2C, 0x01, 0, 0⟩ .zero)) =
      some (⟨0x22, 0x01, 0, 0⟩, [.regSet .cx 290], false) := by decide

/-- 42_add_sub R161, second example. -/
theorem test_subRR_borrow :
    seen .B (loaded 0x032020000000052000000004#96 (regs ⟨0, 0, 0xFF, 0xFF⟩ .zero .zero .zero)) =
      some (⟨0, 0, 1, 0⟩, [.regSet .ebx 0x10000, .ofSet], true) := by decide

/-- 42_add_sub R162. -/
theorem test_subRM_borrow :
    seen .A (loaded 0x032020000000044000000001#96 (withCell 1 ⟨.data, .byte 1, false⟩ State.reset)) =
      some (⟨0xFF, 0xFF, 0xFF, 0xFF⟩, [.regSet .eax 0xFFFFFFFF, .ofSet], true) := by decide

/-- T49l. -/
theorem test_subRM_undeclared :
    seenFault (loaded 0x032020000000024000000077#96 State.reset) =
      some (⟨.undeclaredMemoryAccess, 0, .operand1, 0x77⟩, .halted .fault, 1, []) := by decide

/-- T48. -/
theorem test_subRI_narrow_borrow :
    seen .A (loaded 0x032020000000008000000001#96 (regs ⟨0, 0, 0xCD, 0xAB⟩ .zero .zero .zero)) =
      some (⟨0xFF, 0xFF, 0xCD, 0xAB⟩, [.diagTrunc (.reg .ax) 0xFFFF, .regSet .ax 0xFFFF, .ofSet], true) := by decide

/-- T49f. -/
theorem test_subRI_borrow :
    seen .A (loaded 0x032020000000049080000000#96 (regs ⟨0xFF, 0xFF, 0xFF, 0x7F⟩ .zero .zero .zero)) =
      some (⟨0xFF, 0xFF, 0xFF, 0xFF⟩, [.regSet .eax 0xFFFFFFFF, .ofSet], true) := by decide

/-- 42_add_sub R164. -/
theorem test_subMR_borrow :
    seenCell 1 (loaded 0x032040000000012000000001#96
        (withCell 1 ⟨.data, .word 2, false⟩ (regs .zero ⟨5, 0, 0, 0⟩ .zero .zero))) =
      some (some ⟨.data, .word 0xFFFD, true⟩,
        [.diagTrunc (.sym 1) 0xFFFF, .memSet 1 0xFFFD, .ofSet], true) := by decide

/-- 42_add_sub R165. -/
theorem test_subMI_difference :
    seenCell 0 (loaded 0x032040000000008800000100#96 (withCell 0 ⟨.data, .word 0x300, false⟩ State.reset)) =
      some (some ⟨.data, .word 0x200, true⟩, [.memSet 0 0x200], false) := by decide

/-- T49i. -/
theorem test_subMI_borrow :
    seenCell 0 (loaded 0x032040000000008800000100#96 (withCell 0 ⟨.data, .word 0x80, false⟩ State.reset)) =
      some (some ⟨.data, .word 0xFF80, true⟩,
        [.diagTrunc (.sym 0) 0xFFFF, .memSet 0 0xFF80, .ofSet], true) := by decide

/-! ## Syscall: one step each -/

/-- The word of Syscall. -/
def sys : W96 := 0x040000000000000000000000#96

/-- T51: the 16-bit views only. -/
theorem test_syscall_exit :
    (after (loaded sys (regs ⟨0x3C, 0, 1, 0⟩ ⟨0xFF, 0x01, 0xAA, 0xBB⟩ .zero .zero))).map
        (fun t => (t.st, t.exitStatus, t.ip, t.ev)) = some (.halted .exit, 0x1FF, 1, []) := by decide

/-- T53. -/
theorem test_syscall_write :
    seenCell 2 (loaded sys (withCell 2 ⟨.data, .word 0x4142, false⟩
        (regs ⟨2, 0, 0, 0⟩ ⟨1, 0, 0, 0⟩ ⟨2, 0, 0, 0⟩ ⟨2, 0, 0, 0⟩))) =
      some (some ⟨.data, .word 0x4142, false⟩, [.ioWrite 1 2 2 (.word 0x4142)], false) := by decide

/-! ## Witnesses: states and operands that meet the hypotheses of a statement, each of its clauses -/

/-- A state in each run state that more than one witness uses: `Mov BX,[z]` about to be fetched from an unwritten zero
cell (T28). -/
def faulting : State := loaded 0x012020000000014000000000#96 (withCell 0 ⟨.data, .word 0, false⟩ State.reset)

/-- A program of the greatest length, at its last word, and past it. -/
def longProgram (ip : BitVec 16) : State :=
  { State.reset with code := List.replicate 65535 sys, ip := ip, st := .fetching }

theorem witness_DecodedWordIsItsEncoding : decodeWord 0x0120200000000790FFFFFFFF#96 = .ok (.movRI .edx (.dword 0xFFFFFFFF)) := by
  decide

theorem witness_RawRoundTrip :
    [Operand.reg .edx, .imm (.dword 0xFFFFFFFF)].length ≤ 2 ∧ ([] : List Operand).length ≤ 2 ∧
      wordOk 0x013020000000002000000001#96 = true ∧ wordOk 0x012020000000082000000001#96 = false := by decide

theorem witness_FormIsMaskMatch :
    wordOk sys = true ∧ decodeWord sys = .ok .syscall ∧
      wordOk 0x01202000000007404000FFFF#96 = false ∧ wordOk 0x01202000000007400000FFFF#96 = true ∧
      decodeWord 0x01202000000007400000FFFF#96 = .ok (.movRM .edx 0xFFFF) ∧
      0x01202000000007400000FFFF#96 &&& (rowOf (.movRM .ax 0)).mask = (rowOf (.movRM .ax 0)).pattern := by decide

theorem witness_RejectedWordsFault :
    wordOk 0x012120000000002000000001#96 = false ∧
      (wordOk 0 = true ∧ wordOpc 0 ∉ [1#8, 2#8, 3#8, 4#8]) ∧
      (wordOk 0x052020000000002000000001#96 = true ∧
        wordOpc 0x052020000000002000000001#96 ∉ [1#8, 2#8, 3#8, 4#8]) ∧
      (wordOk 0x011020000000000000000000#96 = true ∧ wordOpc 0x011020000000000000000000#96 ∈ [1#8, 2#8, 3#8] ∧
        wordNops 0x011020000000000000000000#96 ≠ 2) ∧
      (wordOk 0x033020000000002000000001#96 = true ∧ wordOpc 0x033020000000002000000001#96 ∈ [1#8, 2#8, 3#8] ∧
        wordNops 0x033020000000002000000001#96 ≠ 2) ∧
      (wordOk 0x041020000000000000000000#96 = true ∧ wordOpc 0x041020000000000000000000#96 = 4 ∧
        wordNops 0x041020000000000000000000#96 ≠ 0) ∧
      (wordOk 0x012080000000014000000000#96 = true ∧ wordOpc 0x012080000000014000000000#96 ∈ [1#8, 2#8, 3#8] ∧
        wordNops 0x012080000000014000000000#96 = 2 ∧ slotKind (wordSlot0 0x012080000000014000000000#96) = 4) ∧
      (wordOk 0x032040000000004000000001#96 = true ∧ wordOpc 0x032040000000004000000001#96 ∈ [1#8, 2#8, 3#8] ∧
        wordNops 0x032040000000004000000001#96 = 2 ∧ slotKind (wordSlot0 0x032040000000004000000001#96) = 2 ∧
        slotKind (wordSlot1 0x032040000000004000000001#96) = 2) := by decide

theorem witness_UnimplementedOpcodeIsFatal :
    wordOk 0xFF3020000000002000000001#96 = true ∧ wordOpc 0xFF3020000000002000000001#96 ∉ [1#8, 2#8, 3#8, 4#8] := by
  decide

theorem witness_WriteThroughWideView :
    setReg Family.A.view32 (.byte 0xFF) sectionThree = setReg .eax (.byte 0xFF) sectionThree ∧
      setReg Family.A.view32 (.word 0xFFFF) sectionThree = setReg .eax (.word 0xFFFF) sectionThree ∧
      setReg Family.A.view32 (.dword 0) sectionThree = setReg .eax (.dword 0) sectionThree ∧
      Family.B ≠ Family.A := by decide

theorem witness_ViewsAfterRegisterWrite :
    RegView.ax.fam = .A ∧ RegView.eax.fam = .A ∧ RegView.ebx.fam ≠ RegView.ax.fam := by decide

theorem witness_DiagnosticsByTagAndByLoss :
    Width.word.bytes < (Data.dword 5).width.bytes ∧ (Data.byte 1).width.bytes < Width.word.bytes ∧
      (Data.word 1).width = .word ∧ (0xFFFF#32).toNat < 2 ^ Width.word.bits ∧
      2 ^ Width.word.bits ≤ (0x10000#32).toNat ∧ (0xFFFFFFFF#32).toNat < 2 ^ Width.dword.bits := by decide

theorem witness_MovRegisterToRegister :
    (RegView.ax ≠ .eax ∧ RegView.ax.fam = RegView.eax.fam) ∧ RegView.ecx.fam ≠ RegView.ax.fam := by decide

/-- Readable because it is not zero, and readable because it was written. -/
def cells : State :=
  withCell 0 ⟨.data, .word 10, false⟩ (withCell 0xFFFF ⟨.bss, .dword 0, true⟩
    (withCell 7 ⟨.bss, .byte 0, false⟩ State.reset))

theorem witness_MovLoadsReadableCell :
    (cells.mem.cellAt (0#16).toNat = some ⟨.data, .word 10, false⟩ ∧ (⟨.data, .word 10, false⟩ : MemCell).readable) ∧
      cells.mem.cellAt (0xFFFF#16).toNat = some ⟨.bss, .dword 0, true⟩ ∧
      (⟨.bss, .dword 0, true⟩ : MemCell).readable := by decide

theorem witness_MovStoresToDeclaredCell : cells.mem.cellAt (7#16).toNat = some ⟨.bss, .byte 0, false⟩ := by decide

theorem witness_MovMemoryFaults :
    cells.mem.cellAt (1#16).toNat = none ∧ cells.mem.cellAt (7#16).toNat = some ⟨.bss, .byte 0, false⟩ ∧
      (⟨.bss, .byte 0, false⟩ : MemCell).data.value = 0 := by decide

theorem witness_AluLaws :
    Alu.execute ⟨.add, 0xFFFFFFFF, 1⟩ = some (0, true) ∧ Alu.execute ⟨.sub, 0, 1⟩ = some (0xFFFFFFFF, true) ∧
      Alu.execute ⟨.add, 0, -1⟩ = some (0xFFFFFFFF, false) ∧ (1 : BitVec 32) ≠ 0 := by decide

theorem witness_AddToRegisterResult :
    cells.mem.cellAt (0#16).toNat = some ⟨.data, .word 10, false⟩ ∧ (⟨.data, .word 10, false⟩ : MemCell).readable := by
  decide

theorem witness_SubFromRegisterResult :
    cells.mem.cellAt (0xFFFF#16).toNat = some ⟨.bss, .dword 0, true⟩ ∧
      (⟨.bss, .dword 0, true⟩ : MemCell).readable := by decide

theorem witness_AddToCellResult :
    cells.mem.cellAt (0#16).toNat = some ⟨.data, .word 10, false⟩ ∧ (⟨.data, .word 10, false⟩ : MemCell).readable := by
  decide

theorem witness_SubFromCellResult :
    cells.mem.cellAt (0xFFFF#16).toNat = some ⟨.bss, .dword 0, true⟩ ∧
      (⟨.bss, .dword 0, true⟩ : MemCell).readable := by decide

theorem witness_AddSubMemoryFaults :
    cells.mem.cellAt (1#16).toNat = none ∧ cells.mem.cellAt (7#16).toNat = some ⟨.bss, .byte 0, false⟩ ∧
      (⟨.bss, .byte 0, false⟩ : MemCell).written = false ∧ (⟨.bss, .byte 0, false⟩ : MemCell).data.value = 0 := by
  decide

theorem witness_MemReadOutcomes :
    cells.mem.cellAt (1#16).toNat = none ∧
      (cells.mem.cellAt (7#16).toNat = some ⟨.bss, .byte 0, false⟩ ∧ (Data.byte 0).value = 0) ∧
      (cells.mem.cellAt (0xFFFF#16).toNat = some ⟨.bss, .dword 0, true⟩) ∧
      cells.mem.cellAt (0#16).toNat = some ⟨.data, .word 10, false⟩ ∧ (Data.word 10).value ≠ 0 := by decide

theorem witness_MemWriteEffect :
    cells.mem.cellAt (1#16).toNat = none ∧ cells.mem.cellAt (7#16).toNat = some ⟨.bss, .byte 0, false⟩ := by decide

theorem witness_StoredCellIsReadable : cells.mem.cellAt (7#16).toNat = some ⟨.bss, .byte 0, false⟩ := by decide

/-- The program of P1, its word at index 4 as its whole code. -/
def sample : Program :=
  { data := [(0, .word 10)], bss := [(1, .word)], code := [0x012040000000012000000002#96], widenDiag := false }

theorem witness_InvariantAtConstruction : sample.valid := by
  refine ⟨by decide, fun w hw => ?_, by decide⟩
  rw [List.mem_singleton.1 hw]
  decide

theorem witness_ConstructedMachineHasProgram :
    (sample.declarations.map (fun x => x.1)).Nodup ∧ ((0, .word 10) : SymId × Data) ∈ sample.data ∧ ((1, .word) : SymId × Width) ∈ sample.bss ∧
      (∀ d, ((2, d) : SymId × Data) ∉ sample.data) ∧ ∀ w, ((2, w) : SymId × Width) ∉ sample.bss :=
  ⟨by decide, by decide, by decide, by simp [sample], by simp [sample]⟩

theorem witness_SyscallExit : (regs ⟨0x3C, 0, 1, 0⟩ .zero .zero .zero).reg .ax = 60 := by decide

/-- A state with number `n` in AX and the buffer id 2, a word cell of value `v`. -/
def sysState (n : Byte) (v : BitVec 16) : State :=
  withCell 2 ⟨.data, .word v, false⟩ (regs ⟨n, 0, 0, 0⟩ .zero .zero ⟨2, 0, 0xFF, 0xFF⟩)

theorem witness_SyscallReadFillsBuffer :
    (sysState 1 0).reg .ax = 1 ∧
      (sysState 1 0).mem.cellAt (syscallBuffer (sysState 1 0)).toNat = some ⟨.data, .word 0, false⟩ := by decide

theorem witness_SyscallWriteEmitsBuffer :
    (sysState 2 5).reg .ax = 2 ∧
      (sysState 2 5).mem.cellAt (syscallBuffer (sysState 2 5)).toNat = some ⟨.data, .word 5, false⟩ ∧
      (⟨.data, .word 5, false⟩ : MemCell).readable := by decide

theorem witness_SyscallUnknownContinues :
    (sysState 0 0).reg .ax ≠ 60 ∧ (sysState 0 0).reg .ax ≠ 1 ∧ (sysState 0 0).reg .ax ≠ 2 ∧
      (sysState 3 0).reg .ax ≠ 60 ∧ (sysState 3 0).reg .ax ≠ 1 ∧ (sysState 3 0).reg .ax ≠ 2 := by decide

theorem witness_SyscallMemoryFaults :
    ((regs ⟨1, 0, 0, 0⟩ .zero .zero .zero).reg .ax = 1 ∧
        (regs ⟨1, 0, 0, 0⟩ .zero .zero .zero).mem.cellAt (((regs ⟨1, 0, 0, 0⟩ .zero .zero .zero).reg .dx).toNat % 2 ^ 16) = none) ∧
      (sysState 2 0).reg .ax = 2 ∧
      (sysState 2 0).mem.cellAt (((sysState 2 0).reg .dx).toNat % 2 ^ 16) = some ⟨.data, .word 0, false⟩ ∧
      (Data.word 0).value = 0 := by decide

theorem witness_FaultEntryRecordsCause :
    (0 < 65535 ∧ ({ State.reset with ip := 1 } : State).ip = BitVec.ofNat 16 (0 + 1)) ∧
      65534 < 65535 ∧ ({ State.reset with ip := 65535 } : State).ip = BitVec.ofNat 16 (65534 + 1) := by decide

theorem witness_FaultingInstructionWritesNothing :
    exec (.movRM .bx 0) faulting =
      .next (raise ⟨.useOfUninitializedMemory, .operand1, 0⟩ faulting) ∧
      (raise ⟨.useOfUninitializedMemory, .operand1, 0⟩ faulting).st = .halted .fault := ⟨rfl, rfl⟩

theorem witness_FaultsArePrecise :
    faulting.st = .fetching ∧ (after faulting).map (fun t => t.st) = some (.halted .fault) := by decide

theorem witness_AluModeOffUnreachable : (after faulting).map (fun t => t.st) = some (.halted .fault) := by decide

theorem witness_FetchAdvancesIp :
    ((longProgram 65535).st = .fetching ∧ (longProgram 65535).code.length ≤ 65535 ∧
        (longProgram 65535).ip.toNat = (longProgram 65535).code.length) ∧
      (longProgram 65534).code[(longProgram 65534).ip.toNat]? = some sys := by
  have hl : (longProgram 65535).code.length = 65535 := List.length_replicate
  have hl' : (longProgram 65534).code.length = 65535 := List.length_replicate
  refine ⟨⟨rfl, hl.le, hl.symm⟩, ?_⟩
  rw [List.getElem?_eq_getElem (by rw [hl']; decide)]
  exact congrArg some (List.getElem_replicate _)

theorem witness_StepRunsDecodedInstruction :
    (faulting.st = .fetching ∧ faulting.code.length ≤ 65535 ∧
        faulting.code[faulting.ip.toNat]? = some 0x012020000000014000000000#96 ∧
        decodeWord 0x012020000000014000000000#96 = .ok (.movRM .bx 0)) ∧
      (loaded 0 State.reset).code[(loaded 0 State.reset).ip.toNat]? = some 0 ∧
      decodeWord 0 = .error (.unimplementedOpcode 0) := by decide

theorem witness_StepIsFetchThenDecode :
    faulting.st = .fetching ∧
      fetch faulting = .next (afterFetch 0x012020000000014000000000#96 faulting) ∧
      (afterFetch 0x012020000000014000000000#96 faulting).st = .decoding 1 := ⟨rfl, rfl, rfl⟩

theorem witness_LoadedWordRunsNext :
    State.reset.code.length ≤ 65535 ∧ State.reset.ip.toNat < 65535 ∧
      decodeTableWord 96 0x040000000000000000000000 = some .syscall ∧
      ({ State.reset with ip := 65534 } : State).ip.toNat < 65535 := by decide

theorem witness_RunOnlyFromIdle :
    State.reset.st = .idle ∧ faulting.st ≠ .idle ∧ ({ State.reset with st := .halted .exit } : State).st = .halted .exit := by
  decide

/-- The invariant in a run: Fetching, about to fault. -/
theorem witness_InvariantKeptByStep :
    faulting.Inv ∧ (after faulting).map (fun t => t.st) = some (.halted .fault) :=
  ⟨⟨by decide, by decide, by decide, rfl, rfl⟩, by decide⟩

theorem witness_UnwrittenStateStays :
    (after (loaded 0x022020000000042000000005#96
      { regs ⟨0xFF, 0xFF, 0xFF, 0xFF⟩ ⟨1, 0, 0, 0⟩ .zero .zero with sp := 9, bp := 8 })).isSome = true := by decide

theorem witness_OverflowFlagWriters :
    (isAddOrSub (.movRI .ax (.byte 1)) = false ∧
        exec (.movRI .ax (.byte 1)) State.reset = .next (complete (setReg .ax (.byte 1) State.reset))) ∧
      exec (.addRM .ax 0) faulting = .next (raise ⟨.useOfUninitializedMemory, .operand1, 0⟩ faulting) ∧
      (raise ⟨.useOfUninitializedMemory, .operand1, 0⟩ faulting).st = .halted .fault := ⟨⟨rfl, rfl⟩, rfl, rfl⟩

theorem witness_ProgramAndDeclarationsConstant :
    (after (loaded 0x012040000000028000000001#96 (sysState 0 0))).isSome = true := by decide

theorem witness_TraceAndWrittenBitsGrow :
    (after (loaded 0x0120400000FFFF8000000000#96 cells)).isSome = true ∧
      (loaded 0x0120400000FFFF8000000000#96 cells).mem.cellAt 0xFFFF = some ⟨.bss, .dword 0, true⟩ := by decide

theorem witness_HiddenStateIsNotRead :
    ({ faulting with ev := [.ofSet], widenDiag := true, alu := ⟨.sub, 1, 2⟩ } : State).eraseHidden =
        faulting.eraseHidden ∧
      ({ faulting with ev := [.ofSet], widenDiag := true, alu := ⟨.sub, 1, 2⟩ } : State) ≠ faulting := by decide

theorem witness_EveryRunHalts : (construct sample).Inv := ⟨by decide, by decide, by decide, rfl, rfl, rfl⟩

end Sys2Proof.Tests
end

section
/-! PROOFS. Register reads and writes, the port codes, and the reset state (10_state R13 to R18, R27 to R29, R34). -/

namespace Sys2Proof.Machine

/-! ## Register writes, lane by lane -/

@[simp] theorem narrower_dword (w : Width) : w.narrower .dword = w := by cases w <;> rfl

/-- Every lane after a register write: the low lanes of the narrower of the two widths are written (10_state R15). -/
theorem lane_setReg (r : RegView) (d : Data) (s : State) (f : Family) (k : Fin 4) :
    (setReg r d s).lane f k =
      if f = r.fam ∧ k.val < (d.width.narrower r.width).bytes then d.value.extractLsb' (8 * k.val) 8
      else s.lane f k :=
  lanes_writeLow ..

theorem lane_setReg_other {r : RegView} (d : Data) (s : State) {g : Family} (h : g ≠ r.fam) (k : Fin 4) :
    (setReg r d s).lane g k = s.lane g k := by
  rw [lane_setReg, if_neg fun hk => h hk.1]

/-- Through a 32-bit view the width of the Data alone selects the lanes (10_state R17). -/
theorem lane_setReg_view32 (f : Family) (d : Data) (s : State) (k : Fin 4) :
    (setReg f.view32 d s).lane f k =
      if k.val < d.width.bytes then d.value.extractLsb' (8 * k.val) 8 else s.lane f k := by
  simp [lane_setReg]

theorem ev_setReg (r : RegView) (d : Data) (s : State) :
    (setReg r d s).ev =
      s.ev ++ widthDiags s.widenDiag (.reg r) r.width d ++ [.regSet r ((setReg r d s).reg r)] := rfl

theorem widthDiags_widening (widen : Bool) (dest : Dest) {dw : Width} {d : Data} (h : d.width.bytes < dw.bytes) :
    widthDiags widen dest dw d = if widen then [.diagWiden dest] else [] := by
  simp [widthDiags, h, Nat.not_lt.2 h.le]

theorem widthDiags_same (widen : Bool) (dest : Dest) (d : Data) : widthDiags widen dest d.width d = [] := by
  simp [widthDiags]

/-- The events of a write of a narrower Data value through a 32-bit view (10_state R15, 20_memory R53). -/
theorem ev_setReg_view32_widening (f : Family) {d : Data} (s : State) (h : d.width.bytes < Width.dword.bytes) :
    (setReg f.view32 d s).ev = s.ev ++ (if s.widenDiag then [.diagWiden (.reg f.view32)] else []) ++
      [.regSet f.view32 ((setReg f.view32 d s).reg f.view32)] := by
  rw [ev_setReg, Family.width_view32, widthDiags_widening _ _ h]

theorem ev_setReg_view32_dword (f : Family) (v : BitVec 32) (s : State) :
    (setReg f.view32 (.dword v) s).ev =
      s.ev ++ [.regSet f.view32 ((setReg f.view32 (.dword v) s).reg f.view32)] := by
  have hd : widthDiags s.widenDiag (.reg f.view32) .dword (.dword v) = [] := widthDiags_same _ _ (.dword v)
  rw [ev_setReg, Family.width_view32, hd, List.append_nil]

/-- Settles O10: the lanes and the events by the width of the Data, the frame by its family. -/
theorem writeThroughWideView : Obligations.WriteThroughWideView := by
  rintro s f d t rfl
  refine ⟨?byte, ?word, ?dword, fun g k hg => lane_setReg_other d s (by simpa using hg) k⟩
  case byte =>
    rintro v rfl
    refine ⟨?_, ?_, ?_, ?_, ev_setReg_view32_widening f s (show 1 < 4 by decide)⟩ <;>
      simp [lane_setReg_view32, Data.width, Data.value, Width.bytes, BitVec.extractLsb'_setWidth_of_le]
  case word =>
    rintro v rfl
    refine ⟨?_, ?_, ?_, ?_, ev_setReg_view32_widening f s (show 2 < 4 by decide)⟩ <;>
      simp [lane_setReg_view32, Data.width, Data.value, Width.bytes, BitVec.extractLsb'_setWidth_of_le]
  case dword =>
    rintro v rfl
    refine ⟨?_, ?_, ?_, ?_, ev_setReg_view32_dword f v s⟩ <;>
      simp [lane_setReg_view32, Data.width, Data.value, Width.bytes]

/-! ## Register writes, view by view -/

theorem reg_setReg_other {r q : RegView} (d : Data) (s : State) (h : q.fam ≠ r.fam) :
    (setReg r d s).reg q = s.reg q :=
  read_writeLow_other s.gpr r q _ _ h

/-- Data at least as wide as the view: the view reads as its low bits (10_state R18). -/
theorem reg_setReg_whole {r : RegView} {d : Data} (s : State) (h : d.width.narrower r.width = r.width) :
    (setReg r d s).reg r = (Data.ofValue r.width d.value).value := by
  unfold setReg
  rw [h]
  exact read_writeLow_whole s.gpr r d.value

theorem reg_view16_setReg_word (f : Family) (v : BitVec 16) (s : State) :
    (setReg f.view16 (.word v) s).reg f.view16 = v.setWidth 32 := by
  rw [reg_setReg_whole s (by rw [Family.width_view16]; rfl), Family.width_view16]
  simp [Data.ofValue, Data.value]

theorem reg_view16_setReg_dword (f : Family) (v : BitVec 32) (s : State) :
    (setReg f.view16 (.dword v) s).reg f.view16 = (v.extractLsb' 0 16).setWidth 32 := by
  rw [reg_setReg_whole s (by rw [Family.width_view16]; rfl), Family.width_view16,
    ← BitVec.setWidth_eq_extractLsb' (by decide)]
  rfl

theorem reg_view32_setReg_dword (f : Family) (v : BitVec 32) (s : State) :
    (setReg f.view32 (.dword v) s).reg f.view32 = v := by
  rw [reg_setReg_whole s (by rw [Family.width_view32]; rfl), Family.width_view32]
  rfl

/-- The 16-bit view is the low half of the 32-bit view (10_state R14). -/
theorem reg_view16 (s : State) (f : Family) :
    s.reg f.view16 = ((s.reg f.view32).extractLsb' 0 16).setWidth 32 := by
  rw [← BitVec.setWidth_eq_extractLsb' (by decide)]
  exact read_view16 s.gpr f

/-- A 32-bit view whose low lanes were written: the written bits below, the old ones above (10_state R15, R18). -/
theorem getLsbD_read_dword_writeLow (l : Lanes) (w : Width) (v : BitVec 32) {i : Nat} (hi : i < 32) :
    ((l.writeLow w v).read .dword).getLsbD i =
      if i < w.bits then v.getLsbD i else (l.read .dword).getLsbD i := by
  cases w with
  | byte =>
    rw [getLsbD_read_dword, getLsbD_read_dword]
    by_cases h8 : i < 8 <;> simp [Lanes.writeLow, Width.bits, Width.bytes, h8]
  | word =>
    rw [getLsbD_read_dword, getLsbD_read_dword]
    by_cases h8 : i < 8
    · simp [Lanes.writeLow, Width.bits, Width.bytes, h8, show i < 16 by omega]
    · by_cases h16 : i < 16
      · simp [Lanes.writeLow, Width.bits, Width.bytes, h8, h16, show i - 8 < 8 by omega, show 8 + (i - 8) = i by omega]
      · simp [Lanes.writeLow, Width.bits, Width.bytes, h8, h16]
  | dword =>
    rw [(read_lanes_writeLow l v).2, if_pos]
    exact hi

theorem getLsbD_reg_view32_setReg {r : RegView} {f : Family} (hr : r.fam = f) (d : Data) (s : State) {i : Nat}
    (hi : i < 32) :
    ((setReg r d s).reg f.view32).getLsbD i =
      if i < (d.width.narrower r.width).bits then d.value.getLsbD i else (s.reg f.view32).getLsbD i := by
  subst hr
  simp only [State.reg, GprFile.read, setReg, writeLanes_gpr, GprFile.writeLow, Family.fam_view32,
    Family.width_view32, lanes_setLanes_same]
  exact getLsbD_read_dword_writeLow _ _ _ hi

theorem reg_view32_setReg_byte {r : RegView} {f : Family} (hr : r.fam = f) (v : BitVec 8) (s : State) :
    (setReg r (.byte v) s).reg f.view32 = (s.reg f.view32).extractLsb' 8 24 ++ v := by
  have hw : (Data.width (.byte v)).narrower r.width = .byte := by cases r <;> rfl
  apply BitVec.eq_of_getLsbD_eq
  intro i hi
  rw [getLsbD_reg_view32_setReg hr _ s hi, hw, BitVec.getLsbD_append, BitVec.getLsbD_extractLsb']
  by_cases h8 : i < 8
  · simp [Data.value, Width.bits, Width.bytes, h8, hi]
  · simp [Width.bits, Width.bytes, h8, show i - 8 < 24 by omega, show 8 + (i - 8) = i by omega]

theorem reg_view32_setReg_word (f : Family) (v : BitVec 16) (s : State) :
    (setReg f.view16 (.word v) s).reg f.view32 = (s.reg f.view32).extractLsb' 16 16 ++ v := by
  have hw : (Data.width (.word v)).narrower f.view16.width = .word := by rw [Family.width_view16]; rfl
  apply BitVec.eq_of_getLsbD_eq
  intro i hi
  rw [getLsbD_reg_view32_setReg f.fam_view16 _ s hi, hw, BitVec.getLsbD_append, BitVec.getLsbD_extractLsb']
  by_cases h16 : i < 16
  · simp [Data.value, Width.bits, Width.bytes, h16, hi]
  · simp [Width.bits, Width.bytes, h16, show i - 16 < 16 by omega, show 16 + (i - 16) = i by omega]

/-- Settles O11: R18's rows, the 16-bit view after a Dword write being the low half of the 32-bit one. -/
theorem viewsAfterRegisterWrite : Obligations.ViewsAfterRegisterWrite := by
  intro s f
  refine ⟨fun v => ⟨reg_view16_setReg_word f v s, reg_view32_setReg_word f v s⟩,
    fun v => ⟨reg_view32_setReg_dword f v s, ?_⟩, fun v => reg_view16_setReg_dword f v s,
    fun v r hr => reg_view32_setReg_byte hr v s, fun r q d h => reg_setReg_other d s h⟩
  rw [reg_view16, reg_view32_setReg_dword]

/-- Settles O8: the lanes of each view are the definition of its read; the Data value has the view's width and value. -/
theorem registerReadIsItsLanes : Obligations.RegisterReadIsItsLanes := by
  intro s f
  refine ⟨?_, ?_, fun r => ⟨s.regData r, rfl, width_regData s r, value_regData s r⟩⟩
  · cases f <;> rfl
  · cases f <;> rfl

/-- Settles O9, by the law of the 16-bit view. -/
theorem sixteenBitViewAliasesLowHalf : Obligations.SixteenBitViewAliasesLowHalf := reg_view16

/-! ## The port codes and the reset state -/

/-- Each flag stands at its place in the packed word (10_state R27). -/
theorem getLsbD_pack (f : Flags) :
    f.pack.getLsbD 0 = f.CF ∧ f.pack.getLsbD 1 = f.ZF ∧ f.pack.getLsbD 2 = f.SF ∧ f.pack.getLsbD 3 = f.OF ∧
      f.pack.getLsbD 4 = f.PF ∧ f.pack.getLsbD 5 = f.AF ∧ f.pack.getLsbD 6 = f.IF ∧ f.pack.getLsbD 7 = f.DF ∧
      f.pack.getLsbD 8 = f.TF := by
  simp only [Flags.pack, BitVec.getLsbD_append]
  simp

/-- Settles O40: the packing for all flags; the codes are finitely many, the opcode of Decoding having
none of its own. -/
theorem statusPortCodes : Obligations.StatusPortCodes :=
  ⟨getLsbD_pack, rfl, rfl, fun _ => rfl, by decide⟩

theorem lane_reset (f : Family) (k : Fin 4) : State.reset.lane f k = 0 := by
  revert k
  cases f <;> decide

/-- Settles O47: each field as `State.reset` writes it, each lane of each family zero. -/
theorem resetState : Obligations.ResetState :=
  ⟨lane_reset, rfl, rfl, rfl, rfl, rfl, rfl, rfl, rfl, rfl, fun _ => rfl⟩

end Sys2Proof.Machine
end

section
/-! PROOFS. The state: the invariant kept by every step, what no step changes, and the writers of OF
(10_state R22 to R30, R33, R36). -/

namespace Sys2Proof.Machine

/-! ## The invariant -/

/-- The state between fetch and the end of the instruction: what the invariant says of a fetched instruction, whatever
the run state (10_state R22, R28 to R30). -/
structure State.Executing (s : State) : Prop where
  memWf      : s.mem.wf
  codeLe     : s.code.length ≤ Config.maxInstr
  ipLe       : s.ip.toNat ≤ s.code.length
  ipPos      : 0 < s.ip.toNat
  fault      : s.fault = .clear
  exitStatus : s.exitStatus = 0

/-- The records are clear in every run state that is not halted (10_state R29, R30). -/
theorem records_clear_of_inv {s : State} (h : s.Inv) (hst : ¬ s.isHalted) :
    s.fault = .clear ∧ s.exitStatus = 0 := by
  obtain ⟨-, -, -, hr⟩ := h
  unfold State.runOk at hr
  cases hs : s.st with
  | idle => rw [hs] at hr; exact hr.2
  | fetching => rw [hs] at hr; exact hr
  | decoding opc => rw [hs] at hr; obtain ⟨hf, he, -⟩ := hr; exact ⟨hf, he⟩
  | halted r => exact absurd ⟨r, hs⟩ hst

theorem executing_afterFetch {s : State} {w : W96} (h : s.Inv) (hst : s.st = .fetching)
    (hw : s.code[s.ip.toNat]? = some w) : (afterFetch w s).Executing := by
  obtain ⟨hf, he⟩ := records_clear_of_inv h (by simp [State.isHalted, hst])
  obtain ⟨hm, hl, -, -⟩ := h
  have hlt := ip_lt_of_fetched hw
  have hip : (afterFetch w s).ip.toNat = s.ip.toNat + 1 := toNat_succ (by omega)
  exact ⟨hm, hl, hip ▸ hlt, by omega, hf, he⟩

theorem ip_pos_of_fetchedWord {opc : BitVec 8} {s : State} {w : W96} (h : fetchedWord opc s = some w) :
    0 < s.ip.toNat := by
  refine Nat.pos_of_ne_zero fun h0 => ?_
  have hz : s.ip = 0 := BitVec.eq_of_toNat_eq h0
  simp [fetchedWord, hz] at h

theorem executing_of_decoding {s : State} {opc : BitVec 8} {w : W96} (h : s.Inv) (hst : s.st = .decoding opc)
    (hw : fetchedWord opc s = some w) : s.Executing := by
  obtain ⟨hf, he⟩ := records_clear_of_inv h (by simp [State.isHalted, hst])
  obtain ⟨hm, hl, hi, -⟩ := h
  exact ⟨hm, hl, hi, ip_pos_of_fetchedWord hw, hf, he⟩

/-- Fault entry establishes the records of Halted(Fault): the index is that of the instruction just fetched
(60_exceptions R191). -/
theorem inv_raise {s : State} (h : s.Executing) {f : Fatal} (hf : f.cause ≠ .none) : (raise f s).Inv := by
  have hidx : (s.ip - 1).toNat + 1 = s.ip.toNat := by
    have := h.ipPos
    bv_omega
  exact ⟨h.memWf, h.codeLe, h.ipLe, hf, hidx, h.exitStatus⟩

/-- Each way an instruction ends establishes the invariant of the run state it ends in. -/
theorem inv_of_ends {s t : State} (h : s.Executing) (he : Ends s t) : t.Inv := by
  cases he with
  | completes e =>
    refine ⟨e.mem.1 h.memWf, ?_, ?_, e.fault.trans h.fault, e.exitStatus.trans h.exitStatus⟩
    · simpa [e.code] using h.codeLe
    · simpa [e.code, e.ip] using h.ipLe
  | faults hf =>
    exact inv_raise h (by rcases hf with hf | hf <;> simp [hf])
  | exits => exact ⟨h.memWf, h.codeLe, h.ipLe, h.ipPos, h.fault⟩

theorem fatal_cause_ne_none (e : DecodeReject) : e.fatal.cause ≠ .none := by
  cases e <;> simp [DecodeReject.fatal]

/-- The inversion of executing a word: an instruction's end, or the entry of the decoder's fatal error. -/
theorem ends_or_raise_of_executeWord {s t : State} {w : W96} (he : executeWord w s = .next t) :
    Ends s t ∨ ∃ e : DecodeReject, t = raise e.fatal s := by
  obtain ⟨u, hu, hends⟩ := executeWord_ends w s
  obtain rfl : u = t := by simpa [hu] using he
  rcases hends with ⟨i, -, hi⟩ | ⟨e, -, hr⟩
  · exact .inl hi
  · exact .inr ⟨e, hr⟩

theorem inv_of_executeWord {s t : State} {w : W96} (h : s.Executing) (he : executeWord w s = .next t) : t.Inv := by
  rcases ends_or_raise_of_executeWord he with hi | ⟨e, rfl⟩
  · exact inv_of_ends h hi
  · exact inv_raise h (fatal_cause_ne_none e)

/-- Settles O49: by the ways a step can answer; an instruction runs between fetch and its end in `State.Executing`. -/
theorem invariantKeptByStep : Obligations.InvariantKeptByStep := by
  intro s t h hs
  cases steps_of_step hs with
  | run hst =>
    have hrec := records_clear_of_inv h (by simp [State.isHalted, hst])
    obtain ⟨hm, hl, hi, -⟩ := h
    exact ⟨hm, hl, hi, hrec⟩
  | endOfCode hst _ hend =>
    have hrec := records_clear_of_inv h (by simp [State.isHalted, hst])
    obtain ⟨hm, hl, hi, -⟩ := h
    exact ⟨hm, hl, hi, hend, hrec⟩
  | word hst _ hw he => exact inv_of_executeWord (executing_afterFetch h hst hw) he
  | half hst hw he => exact inv_of_executeWord (executing_of_decoding h hst hw) he

/-- Settles O48: reset and construction leave IP 0, Idle and the records clear; the program's symbol table is
in canonical form however it was declared. -/
theorem invariantAtConstruction : Obligations.InvariantAtConstruction := by
  refine ⟨⟨wf_nil, Nat.zero_le _, le_rfl, rfl, rfl, rfl⟩, fun p hp => ?_⟩
  obtain ⟨hlen, -, -⟩ := hp
  exact ⟨wf_declare _, hlen, Nat.zero_le _, rfl, rfl, rfl⟩

/-! ## What no step changes -/

/-- What holds between the states before and after any step: SP, BP, the flags but OF, the program and WIDEN_DIAG are as
they were, the event stream has grown, and the symbol table has evolved (10_state R23, R26, R33, R36, 20_memory R54). -/
structure Persists (s t : State) : Prop where
  sp        : t.sp = s.sp
  bp        : t.bp = s.bp
  flags     : t.flags = { s.flags with OF := t.flags.OF }
  code      : t.code = s.code
  widenDiag : t.widenDiag = s.widenDiag
  ev        : s.ev <+: t.ev
  mem       : MemEvolves s.mem t.mem

theorem Persists.refl (s : State) : Persists s s :=
  ⟨rfl, rfl, rfl, rfl, rfl, List.prefix_refl _, .refl _⟩

theorem persists_of_ends {s t : State} (h : Ends s t) : Persists s t := by
  cases h with
  | completes e => exact ⟨e.sp, e.bp, e.flags, e.code, e.widenDiag, e.ev, e.mem⟩
  | faults _ => exact { Persists.refl s with }
  | exits => exact { Persists.refl s with }

theorem persists_of_executeWord {s t : State} {w : W96} (he : executeWord w s = .next t) : Persists s t := by
  rcases ends_or_raise_of_executeWord he with hi | ⟨e, rfl⟩
  · exact persists_of_ends hi
  · exact { Persists.refl s with }

/-- The fetch moves only IP and the run state, so what persists from the state after it persists from the one before. -/
theorem persists_of_step {s t : State} (hs : step s = .next t) : Persists s t := by
  cases steps_of_step hs with
  | run _ => exact { Persists.refl s with }
  | endOfCode _ _ _ => exact { Persists.refl s with }
  | word _ _ _ he => exact { persists_of_executeWord he with }
  | half _ _ he => exact persists_of_executeWord he

/-- Settles O50: each flag but OF is read off the equation of the flag words. -/
theorem unwrittenStateStays : Obligations.UnwrittenStateStays := by
  intro s t hs
  have h := persists_of_step hs
  refine ⟨h.sp, h.bp, ?_, ?_, ?_, ?_, ?_, ?_, ?_, ?_⟩ <;> rw [h.flags]

/-- Settles O52: a step's symbol table declares each id as before. -/
theorem programAndDeclarationsConstant : Obligations.ProgramAndDeclarationsConstant := by
  intro s t hs
  have h := persists_of_step hs
  obtain ⟨-, hdecl, -⟩ := h.mem
  exact ⟨h.code, congrArg List.length h.code, h.widenDiag, fun m => hdecl m.toNat⟩

/-- Settles O53: the two growing parts of what persists. -/
theorem traceAndWrittenBitsGrow : Obligations.TraceAndWrittenBitsGrow := by
  intro s t hs
  have h := persists_of_step hs
  obtain ⟨-, -, hwritten⟩ := h.mem
  exact ⟨h.ev, hwritten⟩

/-! ## The writers of OF -/

/-- A stage result that leaves every flag as it was; a fatal error writes none. -/
def FlagsKept (s : State) : Except Fatal State → Prop
  | .ok t => t.flags = s.flags
  | .error _ => True

theorem flagsKept_memWrite (op : FaultOperand) (a : SymId) (d : Data) (s : State) :
    FlagsKept s (memWrite op a d s) := by
  unfold memWrite
  split
  · trivial
  · exact storeCell_flags ..

theorem flagsKept_movToReg (rd : RegView) (o : Operand) (s : State) : FlagsKept s (movToReg rd o s) := by
  unfold movToReg
  split
  · trivial
  · exact writeLanes_flags ..

theorem flagsKept_movToMem (m : SymId) (o : Operand) (s : State) : FlagsKept s (movToMem m o s) := by
  unfold movToMem
  split
  · trivial
  · exact flagsKept_memWrite ..

theorem flags_movRegReg (rd rs : RegView) (s : State) : (movRegReg rd rs s).flags = s.flags := by
  unfold movRegReg
  split
  · exact emit_flags ..
  · split <;> exact writeLanes_flags ..

theorem flagsKept_syscallRead (s : State) : FlagsKept s (syscallRead s) := by
  unfold syscallRead
  split
  · trivial
  · exact flagsKept_memWrite _ _ _ { s with ioCalls := s.ioCalls + 1 }

theorem flagsKept_syscallWrite (s : State) : FlagsKept s (syscallWrite s) := by
  unfold syscallWrite
  split
  · trivial
  · exact emit_flags ..

theorem flags_of_finish {s t : State} {r : Except Fatal State} (hr : FlagsKept s r) (h : finish r s = .next t) :
    t.flags = s.flags := by
  cases r with
  | ok u => cases h; exact hr
  | error f => cases h; rfl

theorem flags_of_execSyscall {s t : State} (h : execSyscall s = .next t) : t.flags = s.flags := by
  unfold execSyscall at h
  split at h
  · cases h; rfl
  · split at h
    · exact flags_of_finish (flagsKept_syscallRead s) h
    · split at h
      · exact flags_of_finish (flagsKept_syscallWrite s) h
      · exact flags_of_finish (r := .ok _) (emit_flags ..) h

theorem flags_of_exec_of_not_addOrSub {i : Instr} {s t : State} (hi : isAddOrSub i = false)
    (h : exec i s = .next t) : t.flags = s.flags := by
  cases i with
  | movRR rd rs => exact flags_of_finish (r := .ok _) (flags_movRegReg rd rs s) h
  | movRM rd m => exact flags_of_finish (flagsKept_movToReg rd (.mem m) s) h
  | movRI rd d => exact flags_of_finish (flagsKept_movToReg rd (.imm d) s) h
  | movMR m rs => exact flags_of_finish (flagsKept_movToMem m (.reg rs) s) h
  | movMI m d => exact flags_of_finish (flagsKept_movToMem m (.imm d) s) h
  | syscall => exact flags_of_execSyscall h
  | addRR | addRM | addRI | addMR | addMI | subRR | subRM | subRI | subMR | subMI => cases hi

theorem flags_of_ends_of_faulted {s t : State} (h : Ends s t) (ht : t.st = .halted .fault) : t.flags = s.flags := by
  cases h with
  | completes _ => cases ht
  | faults _ => rfl
  | exits => cases ht

/-- Settles O51: the two ways an instruction can be no writer of OF. -/
theorem overflowFlagWriters : Obligations.OverflowFlagWriters := by
  intro i s t h hwriter
  rcases hwriter with hi | ht
  · exact flags_of_exec_of_not_addOrSub hi h
  · exact flags_of_ends_of_faulted (ends_of_exec h) ht

end Sys2Proof.Machine
end

section
/-! PROOFS. What no step reads: the event stream, WIDEN_DIAG and the ALU scratch (10_state R31, R33, 60_exceptions R189).

Each operation is shown to commute with erasing the hidden parts beforehand, up to erasing them afterwards; two states
that agree after erasure are then stepped through the one erased state they share. -/

namespace Sys2Proof.Machine

/-- The two stage results differ in nothing but the hidden parts. -/
def SameVisible (r q : Except Fatal State) : Prop := r.map State.eraseHidden = q.map State.eraseHidden

@[simp] theorem findCell_eraseHidden (op : FaultOperand) (a : SymId) (s : State) :
    findCell op a s.eraseHidden = findCell op a s := rfl

@[simp] theorem readableCell_eraseHidden (op : FaultOperand) (a : SymId) (s : State) :
    readableCell op a s.eraseHidden = readableCell op a s := rfl

@[simp] theorem memRead_eraseHidden (op : FaultOperand) (a : SymId) (s : State) :
    memRead op a s.eraseHidden = memRead op a s := rfl

@[simp] theorem srcData_eraseHidden (o : Operand) (s : State) : srcData o s.eraseHidden = srcData o s := by
  cases o <;> rfl

theorem sameVisible_memWrite (op : FaultOperand) (a : SymId) (d : Data) (s : State) :
    SameVisible (memWrite op a d s.eraseHidden) (memWrite op a d s) := by
  unfold memWrite
  rw [findCell_eraseHidden]
  cases findCell op a s <;> rfl

theorem sameVisible_movToReg (rd : RegView) (o : Operand) (s : State) :
    SameVisible (movToReg rd o s.eraseHidden) (movToReg rd o s) := by
  unfold movToReg
  rw [srcData_eraseHidden]
  cases srcData o s <;> rfl

theorem sameVisible_movToMem (m : SymId) (o : Operand) (s : State) :
    SameVisible (movToMem m o s.eraseHidden) (movToMem m o s) := by
  unfold movToMem
  rw [srcData_eraseHidden]
  cases srcData o s with
  | error f => rfl
  | ok d => exact sameVisible_memWrite ..

theorem eraseHidden_movRegReg (rd rs : RegView) (s : State) :
    (movRegReg rd rs s.eraseHidden).eraseHidden = (movRegReg rd rs s).eraseHidden := by
  unfold movRegReg
  split
  · rfl
  · split <;> rfl

theorem eraseHidden_setOverflowFlag_congr (o : Bool) {s t : State} (h : s.eraseHidden = t.eraseHidden) :
    (setOverflowFlag o s).eraseHidden = (setOverflowFlag o t).eraseHidden :=
  congrArg (fun u : State => { u with flags := u.flags.setOverflow o }) h

/-- The ALU's scratch is loaded before it is read, so its old value reaches only the write-back,
which does not show it. -/
theorem sameVisible_aluStage (mode : AluMode) (d e : BitVec 32) {write : BitVec 32 → State → State} {s : State}
    (hw : ∀ r, (write r (loadAlu mode d e s.eraseHidden)).eraseHidden =
      (write r (loadAlu mode d e s)).eraseHidden) :
    SameVisible (aluStage mode d e write s.eraseHidden) (aluStage mode d e write s) := by
  cases mode with
  | off => rfl
  | add => exact congrArg Except.ok (eraseHidden_setOverflowFlag_congr _ (hw _))
  | sub => exact congrArg Except.ok (eraseHidden_setOverflowFlag_congr _ (hw _))

theorem sameVisible_aluToReg (mode : AluMode) (rd : RegView) (o : Operand) (s : State) :
    SameVisible (aluToReg mode rd o s.eraseHidden) (aluToReg mode rd o s) := by
  unfold aluToReg
  rw [srcData_eraseHidden]
  cases srcData o s with
  | error f => rfl
  | ok d => exact sameVisible_aluStage _ _ _ fun _ => rfl

theorem sameVisible_aluToMem (mode : AluMode) (m : SymId) (o : Operand) (s : State) :
    SameVisible (aluToMem mode m o s.eraseHidden) (aluToMem mode m o s) := by
  unfold aluToMem
  rw [srcData_eraseHidden, readableCell_eraseHidden]
  cases srcData o s with
  | error f => rfl
  | ok d =>
    cases readableCell .operand0 m s with
    | error f => rfl
    | ok c => exact sameVisible_aluStage _ _ _ fun _ => rfl

theorem sameVisible_syscallRead (s : State) : SameVisible (syscallRead s.eraseHidden) (syscallRead s) := by
  have hbuf : syscallBuffer s.eraseHidden = syscallBuffer s := rfl
  unfold syscallRead
  rw [hbuf, findCell_eraseHidden]
  cases findCell .noOperand (syscallBuffer s) s with
  | error f => rfl
  | ok c => exact sameVisible_memWrite _ _ _ { s with ioCalls := s.ioCalls + 1 }

theorem sameVisible_syscallWrite (s : State) : SameVisible (syscallWrite s.eraseHidden) (syscallWrite s) := by
  have hbuf : syscallBuffer s.eraseHidden = syscallBuffer s := rfl
  unfold syscallWrite
  rw [hbuf, memRead_eraseHidden]
  cases memRead .noOperand (syscallBuffer s) s <;> rfl

theorem mapNext_finish {r q : Except Fatal State} (s : State) (h : SameVisible r q) :
    mapNext State.eraseHidden (finish r s.eraseHidden) = mapNext State.eraseHidden (finish q s) := by
  cases r with
  | ok u =>
    cases q with
    | ok v => exact congrArg (Host.Outcome.next ∘ complete) (Except.ok.inj h)
    | error g => cases h
  | error f =>
    cases q with
    | ok v => cases h
    | error g => cases h; rfl

theorem mapNext_execSyscall (s : State) :
    mapNext State.eraseHidden (execSyscall s.eraseHidden) = mapNext State.eraseHidden (execSyscall s) := by
  have hreg : s.eraseHidden.reg .ax = s.reg .ax := rfl
  unfold execSyscall
  rw [hreg]
  split
  · rfl
  · split
    · exact mapNext_finish s (sameVisible_syscallRead s)
    · split
      · exact mapNext_finish s (sameVisible_syscallWrite s)
      · rfl

theorem mapNext_exec (i : Instr) (s : State) :
    mapNext State.eraseHidden (exec i s.eraseHidden) = mapNext State.eraseHidden (exec i s) := by
  cases i with
  | movRR rd rs => exact mapNext_finish (r := .ok _) (q := .ok _) s (congrArg Except.ok (eraseHidden_movRegReg rd rs s))
  | movRM rd m => exact mapNext_finish s (sameVisible_movToReg rd (.mem m) s)
  | movRI rd d => exact mapNext_finish s (sameVisible_movToReg rd (.imm d) s)
  | movMR m rs => exact mapNext_finish s (sameVisible_movToMem m (.reg rs) s)
  | movMI m d => exact mapNext_finish s (sameVisible_movToMem m (.imm d) s)
  | addRR rd rs => exact mapNext_finish s (sameVisible_aluToReg .add rd (.reg rs) s)
  | addRM rd m => exact mapNext_finish s (sameVisible_aluToReg .add rd (.mem m) s)
  | addRI rd d => exact mapNext_finish s (sameVisible_aluToReg .add rd (.imm d) s)
  | addMR m rs => exact mapNext_finish s (sameVisible_aluToMem .add m (.reg rs) s)
  | addMI m d => exact mapNext_finish s (sameVisible_aluToMem .add m (.imm d) s)
  | subRR rd rs => exact mapNext_finish s (sameVisible_aluToReg .sub rd (.reg rs) s)
  | subRM rd m => exact mapNext_finish s (sameVisible_aluToReg .sub rd (.mem m) s)
  | subRI rd d => exact mapNext_finish s (sameVisible_aluToReg .sub rd (.imm d) s)
  | subMR m rs => exact mapNext_finish s (sameVisible_aluToMem .sub m (.reg rs) s)
  | subMI m d => exact mapNext_finish s (sameVisible_aluToMem .sub m (.imm d) s)
  | syscall => exact mapNext_execSyscall s

theorem mapNext_executeWord (w : W96) (s : State) :
    mapNext State.eraseHidden (executeWord w s.eraseHidden) = mapNext State.eraseHidden (executeWord w s) := by
  unfold executeWord
  cases decodeWord w with
  | ok i => exact mapNext_exec i s
  | error e => rfl

theorem mapNext_decodeExecute (opc : BitVec 8) (s : State) :
    mapNext State.eraseHidden (decodeExecute opc s.eraseHidden) =
      mapNext State.eraseHidden (decodeExecute opc s) := by
  have hw : fetchedWord opc s.eraseHidden = fetchedWord opc s := rfl
  unfold decodeExecute
  rw [hw]
  cases fetchedWord opc s with
  | none => rfl
  | some w => exact mapNext_executeWord w s

theorem fetch_eraseHidden (s : State) : fetch s.eraseHidden = mapNext State.eraseHidden (fetch s) := by
  have hcode : s.eraseHidden.code = s.code := rfl
  have hip : s.eraseHidden.ip = s.ip := rfl
  unfold fetch
  rw [hcode, hip]
  split
  · rfl
  · split
    · rfl
    · cases s.code[s.ip.toNat]? <;> rfl

theorem mapNext_fetchExecute (s : State) :
    mapNext State.eraseHidden (fetchExecute s.eraseHidden) = mapNext State.eraseHidden (fetchExecute s) := by
  unfold fetchExecute
  rw [fetch_eraseHidden]
  cases fetch s with
  | fault r => rfl
  | refused r => rfl
  | next t =>
    have hst : t.eraseHidden.st = t.st := rfl
    simp only [mapNext, hst]
    cases t.st with
    | decoding opc => exact mapNext_decodeExecute opc t
    | idle | fetching | halted => rfl

theorem eraseHidden_runRequest (s : State) :
    (runRequest s.eraseHidden).eraseHidden = (runRequest s).eraseHidden := by
  have hst : s.eraseHidden.st = s.st := rfl
  unfold runRequest
  rw [hst]
  cases s.st <;> rfl

/-- A step shows the same whether or not the hidden parts were erased before it. -/
theorem mapNext_step_eraseHidden (s : State) :
    mapNext State.eraseHidden (step s.eraseHidden) = mapNext State.eraseHidden (step s) := by
  have hst : s.eraseHidden.st = s.st := rfl
  unfold step
  rw [hst]
  cases s.st with
  | idle => exact congrArg Host.Outcome.next (eraseHidden_runRequest s)
  | fetching => exact mapNext_fetchExecute s
  | decoding opc => exact mapNext_decodeExecute opc s
  | halted r => rfl

/-- Settles O54: both states step as the one erased state they share. -/
theorem hiddenStateIsNotRead : Obligations.HiddenStateIsNotRead := by
  intro s t h
  calc mapNext State.eraseHidden (step s)
      = mapNext State.eraseHidden (step s.eraseHidden) := (mapNext_step_eraseHidden s).symm
    _ = mapNext State.eraseHidden (step t.eraseHidden) := by rw [h]
    _ = mapNext State.eraseHidden (step t) := mapNext_step_eraseHidden t

end Sys2Proof.Machine
end

section
/-! PROOFS. Memory: the diagnostics of a write, MemRead, MemWrite, and reading a cell that was stored to
(20_memory R53, R57 to R59, 40_decode R119). -/

namespace Sys2Proof.Machine

/-! ## The diagnostics of a write -/

theorem widthDiags_truncating (widen : Bool) (dest : Dest) {dw : Width} {d : Data} (h : dw.bytes < d.width.bytes) :
    widthDiags widen dest dw d = [.diagTrunc dest (d.value >>> dw.bits)] :=
  if_pos h

/-- No bit of a word stands at place `n` or above exactly when the word is below `2^n`. -/
theorem ushiftRight_eq_zero_iff_toNat_lt {w : Nat} (r : BitVec w) (n : Nat) : r >>> n = 0 ↔ r.toNat < 2 ^ n := by
  rw [← BitVec.toNat_inj, BitVec.toNat_ushiftRight, Nat.shiftRight_eq_div_pow]
  exact Nat.div_eq_zero_iff_lt (Nat.two_pow_pos n)

theorem lossDiags_fits (dest : Dest) {dw : Width} {r : BitVec 32} (h : r.toNat < 2 ^ dw.bits) :
    lossDiags dest dw r = [] :=
  if_pos ((ushiftRight_eq_zero_iff_toNat_lt r dw.bits).2 h)

theorem lossDiags_lost (dest : Dest) {dw : Width} {r : BitVec 32} (h : 2 ^ dw.bits ≤ r.toNat) :
    lossDiags dest dw r = [.diagTrunc dest (r >>> dw.bits)] :=
  if_neg fun hz => Nat.not_lt.2 h ((ushiftRight_eq_zero_iff_toNat_lt r dw.bits).1 hz)

/-- Settles O12: the branches of the two rules, the bits lost being none exactly when the result fits the width. -/
theorem diagnosticsByTagAndByLoss : Obligations.DiagnosticsByTagAndByLoss := by
  intro widen dest dw d r
  refine ⟨widthDiags_truncating widen dest, widthDiags_widening widen dest, ?_, lossDiags_fits dest, lossDiags_lost dest⟩
  rintro rfl
  exact widthDiags_same widen dest d

/-! ## MemRead and MemWrite -/

theorem cellAt_storeCell_same (a : SymId) (c : MemCell) (d : Data) (es : List Event) (s : State) :
    (storeCell a c d es s).mem.cellAt a.toNat = some { c with data := d, written := true } :=
  cellAt_put_same ..

theorem cellAt_storeCell_other {a : SymId} {b : Nat} (c : MemCell) (d : Data) (es : List Event) (s : State)
    (h : b ≠ a.toNat) : (storeCell a c d es s).mem.cellAt b = s.mem.cellAt b :=
  cellAt_put_other _ _ h

/-- The number of a converted value is what the destination's width leaves of it (20_memory R53). -/
theorem toNat_value_conv (w : Width) (d : Data) : (d.conv w).value.toNat = d.value.toNat % 2 ^ w.bits :=
  Data.value_ofValue_toNat w d.value

/-- Settles O27: the outcome of MemRead on each kind of cell. -/
theorem memReadOutcomes : Obligations.MemReadOutcomes := by
  refine fun op m s => ⟨memRead_absent, fun c hc => ⟨?_, memRead_readable hc⟩⟩
  rintro ⟨hw, hz⟩
  exact memRead_unwritten hc hw hz

/-- Settles O28: the write to a declared cell is one `storeCell` of the converted value, which is the new cell's whole
content. -/
theorem memWriteEffect : Obligations.MemWriteEffect := by
  refine fun op m d s => ⟨memWrite_absent d, fun c hc => ?_⟩
  exact ⟨_, _, memWrite_declared d hc, cellAt_storeCell_same .., rfl, Data.width_conv _ d, toNat_value_conv _ d, rfl,
    fun _ ha => cellAt_storeCell_other _ _ _ s ha, rfl⟩

/-! ## A stored cell -/

/-- `Mov [m], imm` to a declared cell completes with one `storeCell` (41_mov R144). -/
theorem exec_movMI_declared {m : SymId} {s : State} {c : MemCell} (d : Data) (h : s.mem.cellAt m.toNat = some c) :
    exec (.movMI m d) s = .next (complete
      (storeCell m c (d.conv c.data.width) (widthDiags s.widenDiag (.sym m) c.data.width d) s)) := by
  calc exec (.movMI m d) s = finish (memWrite .operand0 m d s) s := rfl
    _ = _ := by rw [memWrite_declared d h, finish_ok]

/-- The cell a store wrote is readable whatever was stored, since it is marked written (20_memory R59). -/
theorem memRead_storeCell (op : FaultOperand) (a : SymId) (c : MemCell) (d : Data) (es : List Event) (s : State) :
    memRead op a (storeCell a c d es s) = .ok d :=
  memRead_readable (cellAt_storeCell_same a c d es s) (.inl rfl)

/-- Completion changes the run state only, which MemRead does not look at. -/
@[simp] theorem memRead_complete (op : FaultOperand) (a : SymId) (s : State) :
    memRead op a (complete s) = memRead op a s := rfl

/-- Settles O29: the Mov stores, and completion does not touch the cell. -/
theorem storedCellIsReadable : Obligations.StoredCellIsReadable := by
  intro m d s c hc
  refine ⟨_, exec_movMI_declared d hc, fun op => ?_⟩
  rw [memRead_complete, memRead_storeCell]

end Sys2Proof.Machine
end

section
/-! PROOFS. The encoding: both round trips of encoder and decoder, the mask test of the forms, and the words that are no
form (30_encoding R81 to R92, 40_decode R112 to R115). -/

namespace Sys2Proof

open Machine

/-! ## Well-formed words and their abstract instructions -/

/-- The abstract instruction of a word's fields (30_encoding R86): the word's meaning when it is well-formed. -/
def wordRaw (w : W96) : RawInstr where
  opc  := wordOpc w
  nops := wordNops w
  ops  := [operandOf (wordSlot0 w), operandOf (wordSlot1 w)].take (wordNops w).toNat

theorem decodeRaw_of_wordOk {w : W96} (h : wordOk w = true) : decodeRaw w = some (wordRaw w) :=
  if_pos h

theorem decodeRaw_of_not_wordOk {w : W96} (h : wordOk w = false) : decodeRaw w = none :=
  if_neg (by simp [h])

theorem wordOk_iff {w : W96} :
    wordOk w = true ↔ wordRsv w = 0 ∧ slotOk (wordNops w) 0 (wordSlot0 w) = true ∧
      slotOk (wordNops w) 1 (wordSlot1 w) = true := by
  simp [wordOk, and_assoc]

theorem decodeWord_of_wordOk {w : W96} (h : wordOk w = true) : decodeWord w = selectForm (wordRaw w) := by
  rw [decodeWord, decodeRaw_of_wordOk h]

theorem decodeWord_of_not_wordOk {w : W96} (h : wordOk w = false) : decodeWord w = .error .illegalEncoding := by
  rw [decodeWord, decodeRaw_of_not_wordOk h]

/-- Only well-formed words decode (30_encoding R92). -/
theorem wordOk_of_decodeWord {w : W96} {i : Instr} (h : decodeWord w = .ok i) : wordOk w = true := by
  by_contra hw
  rw [decodeWord_of_not_wordOk (by simpa using hw)] at h
  cases h

/-! ## Encoding after decoding -/

/-- A well-formed slot is the encoding of its operand below the count, and of no operand from the count on. -/
theorem encodeSlot_of_slotOk {nops : BitVec 4} {i : Nat} {b : BitVec 40} (h : slotOk nops i b = true) :
    encodeSlot (if i < nops.toNat then some (operandOf b) else none) = b := by
  unfold slotOk at h
  by_cases hi : i < nops.toNat
  · rw [if_pos hi] at h ⊢
    exact encodeOperand_operandOf h
  · rw [if_neg hi] at h ⊢
    exact (beq_iff_eq.1 h).symm

theorem encodeRaw_wordRaw {w : W96} (h : wordOk w = true) : encodeRaw (wordRaw w) = w := by
  obtain ⟨hrsv, h0, h1⟩ := wordOk_iff.1 h
  have hs0 : encodeSlot (wordRaw w).ops[0]? = wordSlot0 w := by
    simpa [wordRaw, List.getElem?_take] using encodeSlot_of_slotOk h0
  have hs1 : encodeSlot (wordRaw w).ops[1]? = wordSlot1 w := by
    simpa [wordRaw, List.getElem?_take] using encodeSlot_of_slotOk h1
  rw [encodeRaw, hs0, hs1]
  exact word_of_fields hrsv

/-- Settles O3: the word is well-formed, so it is the encoding of its abstract instruction, which selects only its own
form. -/
theorem decodedWordIsItsEncoding : Obligations.DecodedWordIsItsEncoding := by
  intro w i h
  have hok := wordOk_of_decodeWord h
  rw [decodeWord_of_wordOk hok] at h
  rw [encode, selectForm_toRaw h, encodeRaw_wordRaw hok]

/-! ## Decoding after encoding -/

theorem slotOk_encodeSlot {nops : BitVec 4} {ops : List Operand} (hn : nops.toNat = ops.length) (i : Nat) :
    slotOk nops i (encodeSlot ops[i]?) = true := by
  unfold slotOk
  by_cases hi : i < ops.length
  · rw [if_pos (hn ▸ hi), List.getElem?_eq_getElem hi]
    exact operandSlotOk_encodeOperand _
  · rw [if_neg (hn ▸ hi), List.getElem?_eq_none (Nat.not_lt.1 hi)]
    rfl

/-- The encoder makes well-formed words of abstract instructions that count their operands rightly (30_encoding R87). -/
theorem wordOk_encodeRaw {r : RawInstr} (hn : r.nops.toNat = r.ops.length) : wordOk (encodeRaw r) = true := by
  obtain ⟨-, hnops, hrsv, hs0, hs1⟩ := encodeRaw_fields r
  rw [wordOk_iff, hnops, hrsv, hs0, hs1]
  exact ⟨rfl, slotOk_encodeSlot hn 0, slotOk_encodeSlot hn 1⟩

/-- The operands of a list's two slots, up to its length, are the list. -/
theorem take_operandOf_encodeSlot {ops : List Operand} (h : ops.length ≤ 2) :
    [operandOf (encodeSlot ops[0]?), operandOf (encodeSlot ops[1]?)].take ops.length = ops := by
  match ops, h with
  | [], _ => rfl
  | [a], _ => simp [encodeSlot]
  | [a, b], _ => simp [encodeSlot]

theorem wordRaw_encodeRaw {r : RawInstr} (hn : r.nops.toNat = r.ops.length) (hlen : r.ops.length ≤ 2) :
    wordRaw (encodeRaw r) = r := by
  obtain ⟨hopc, hnops, -, hs0, hs1⟩ := encodeRaw_fields r
  rw [wordRaw, hopc, hnops, hs0, hs1, hn, take_operandOf_encodeSlot hlen]

theorem decodeRaw_encodeRaw {r : RawInstr} (hn : r.nops.toNat = r.ops.length) (hlen : r.ops.length ≤ 2) :
    decodeRaw (encodeRaw r) = some r := by
  rw [decodeRaw_of_wordOk (wordOk_encodeRaw hn), wordRaw_encodeRaw hn hlen]

/-- The abstract instruction of a form selects that form (30_encoding R91). -/
theorem selectForm_of_toRaw (i : Instr) : selectForm i.toRaw = .ok i := by
  cases i <;> rfl

theorem toRaw_nops_eq_length (i : Instr) : i.toRaw.nops.toNat = i.toRaw.ops.length := by
  cases i <;> rfl

theorem toRaw_length_le (i : Instr) : i.toRaw.ops.length ≤ 2 := by
  cases i <;> simp [Instr.toRaw]

/-- Settles O2: the abstract instruction comes back from the word, and selects the form it was made from. -/
theorem encodeThenDecode : Obligations.EncodeThenDecode := by
  intro i
  rw [decodeWord, encode, decodeRaw_encodeRaw (toRaw_nops_eq_length i) (toRaw_length_le i)]
  exact selectForm_of_toRaw i

/-- Settles O4: the round trips of the abstract instruction and of the well-formed word. -/
theorem rawRoundTrip : Obligations.RawRoundTrip := by
  refine ⟨fun opc ops hlen => ?_, fun w hw => ?_, fun w => decodeRaw_of_not_wordOk⟩
  · have hn : (BitVec.ofNat 4 ops.length).toNat = ops.length := by
      rw [BitVec.toNat_ofNat, Nat.mod_eq_of_lt (by omega)]
    exact decodeRaw_encodeRaw hn hlen
  · exact ⟨wordRaw w, decodeRaw_of_wordOk hw, encodeRaw_wordRaw hw⟩

/-- Both round trips at once: a word decodes to an instruction exactly when it is its encoding (30_encoding R88). -/
theorem decodeWord_eq_ok_iff {w : W96} {i : Instr} : decodeWord w = .ok i ↔ encode i = w := by
  constructor
  · exact decodedWordIsItsEncoding w i
  · rintro rfl
    exact encodeThenDecode i

/-- Settles O1: each word is the encoding of its form. -/
theorem sampleWordsDecode : Obligations.SampleWordsDecode := by
  refine ⟨?_, ?_, ?_, ?_, ?_, ?_⟩ <;> exact decodeWord_eq_ok_iff.2 rfl

/-! ## The operand kinds -/

/-- The kind number of an operand's slot (30_encoding R82). -/
def Operand.kind : Operand → BitVec 3
  | .reg _ => kindReg
  | .mem _ => kindMem
  | .imm _ => kindImm

/-- Two operands are of one kind: all that the choice of a form looks at (30_encoding R90, R91). -/
inductive Operand.SameKind : Operand → Operand → Prop
  | reg (r q : RegView) : SameKind (.reg r) (.reg q)
  | mem (m n : SymId) : SameKind (.mem m) (.mem n)
  | imm (d e : Data) : SameKind (.imm d) (.imm e)

theorem operandOf_reg {b : BitVec 40} (h : slotKind b = kindReg) :
    operandOf b = .reg (RegView.ofId ((slotPay b).setWidth 3)) := by
  simp [operandOf, h]

theorem operandOf_mem {b : BitVec 40} (h : slotKind b = kindMem) : operandOf b = .mem ((slotPay b).setWidth 16) := by
  simp [operandOf, h, kindMem, kindReg]

theorem operandOf_imm {b : BitVec 40} (h : slotKind b = kindImm) :
    operandOf b = .imm (Data.ofValue (widthOfTag (slotWt b)) (slotPay b)) := by
  simp [operandOf, h, kindImm, kindMem, kindReg]

theorem sameKind_operandOf {b : BitVec 40} {o : Operand} (h : slotKind b = o.kind) : (operandOf b).SameKind o := by
  cases o with
  | reg r => rw [operandOf_reg h]; exact .reg _ _
  | mem m => rw [operandOf_mem h]; exact .mem _ _
  | imm d => rw [operandOf_imm h]; exact .imm _ _

theorem rowOf_formOf (opc : BitVec 8) {m a s m' a' s' : Instr} (hm : rowOf m = rowOf m') (ha : rowOf a = rowOf a')
    (hs : rowOf s = rowOf s') : rowOf (formOf opc m a s) = rowOf (formOf opc m' a' s') := by
  unfold formOf
  split_ifs <;> assumption

/-- The kinds of the operands fix whether a pair is a form, and which (30_encoding R91). -/
theorem selectPair_of_sameKind {opc : BitVec 8} {a b x y : Operand} {i : Instr} (hx : x.SameKind a) (hy : y.SameKind b)
    (h : selectPair opc a b = .ok i) : ∃ j, selectPair opc x y = .ok j ∧ rowOf j = rowOf i := by
  cases hx with
  | reg =>
    cases hy <;> cases h <;> exact ⟨_, rfl, rowOf_formOf opc rfl rfl rfl⟩
  | mem =>
    cases hy <;> cases h <;> exact ⟨_, rfl, rowOf_formOf opc rfl rfl rfl⟩
  | imm => cases h

/-! ## The mask test -/

/-- The bits of a slot that a form of this operand fixes (30_encoding R91). -/
def slotMask : Option Operand → BitVec 40
  | none => 0xFFFFFFFFFF
  | some (.reg _) => 0xFFFFFFFFF8
  | some (.mem _) => 0xFFFFFF0000
  | some (.imm _) => 0xE700000000

/-- The value of those bits: the kind, and 0 elsewhere (30_encoding R91). -/
def slotPattern : Option Operand → BitVec 40
  | none => 0
  | some o => makeSlot o.kind 0 0

/-- The mask of a row, field by field. -/
theorem rowOf_mask_fields (i : Instr) :
    wordOpc (rowOf i).mask = BitVec.allOnes 8 ∧ wordNops (rowOf i).mask = BitVec.allOnes 4 ∧
      wordRsv (rowOf i).mask = BitVec.allOnes 4 ∧ wordSlot0 (rowOf i).mask = slotMask i.toRaw.ops[0]? ∧
      wordSlot1 (rowOf i).mask = slotMask i.toRaw.ops[1]? := by
  cases i <;>
    simp only [rowOf, Instr.toRaw, List.getElem?_cons_zero, List.getElem?_cons_succ, List.getElem?_nil, slotMask] <;>
    decide

/-- The match of a row, field by field. -/
theorem rowOf_pattern_fields (i : Instr) :
    wordOpc (rowOf i).pattern = i.toRaw.opc ∧ wordNops (rowOf i).pattern = i.toRaw.nops ∧
      wordRsv (rowOf i).pattern = 0 ∧ wordSlot0 (rowOf i).pattern = slotPattern i.toRaw.ops[0]? ∧
      wordSlot1 (rowOf i).pattern = slotPattern i.toRaw.ops[1]? := by
  cases i <;>
    simp only [rowOf, Instr.toRaw, List.getElem?_cons_zero, List.getElem?_cons_succ, List.getElem?_nil, slotPattern,
      Operand.kind] <;>
    decide

theorem word_and_eq_iff {w m p : W96} :
    w &&& m = p ↔ wordOpc w &&& wordOpc m = wordOpc p ∧ wordNops w &&& wordNops m = wordNops p ∧
      wordRsv w &&& wordRsv m = wordRsv p ∧ wordSlot0 w &&& wordSlot0 m = wordSlot0 p ∧
      wordSlot1 w &&& wordSlot1 m = wordSlot1 p := by
  constructor
  · rintro rfl
    simp only [wordOpc, wordNops, wordRsv, wordSlot0, wordSlot1, extract_and, and_self]
  · rintro ⟨h1, h2, h3, h4, h5⟩
    exact word_and_eq h1 h2 h3 h4 h5

/-- A word passes a form's mask test exactly when it has the form's opcode, count and zero reserved bits, and both slots
pass theirs. -/
theorem word_and_mask_iff {w : W96} {i : Instr} :
    w &&& (rowOf i).mask = (rowOf i).pattern ↔
      wordOpc w = i.toRaw.opc ∧ wordNops w = i.toRaw.nops ∧ wordRsv w = 0 ∧
        wordSlot0 w &&& slotMask i.toRaw.ops[0]? = slotPattern i.toRaw.ops[0]? ∧
        wordSlot1 w &&& slotMask i.toRaw.ops[1]? = slotPattern i.toRaw.ops[1]? := by
  obtain ⟨m1, m2, m3, m4, m5⟩ := rowOf_mask_fields i
  obtain ⟨p1, p2, p3, p4, p5⟩ := rowOf_pattern_fields i
  rw [word_and_eq_iff, m1, m2, m3, m4, m5, p1, p2, p3, p4, p5,
    BitVec.and_allOnes, BitVec.and_allOnes, BitVec.and_allOnes]

theorem slotKind_slotMask (o : Operand) : slotKind (slotMask (some o)) = BitVec.allOnes 3 := by
  cases o <;> simp only [slotMask] <;> decide

/-- A slot under the mask of an operand shows that operand's kind. -/
theorem slotKind_of_mask {b : BitVec 40} {o : Operand} (h : b &&& slotMask (some o) = slotPattern (some o)) :
    slotKind b = o.kind := by
  calc slotKind b = slotKind (b &&& slotMask (some o)) := by
        rw [slotKind, slotKind, extract_and, ← slotKind, ← slotKind, slotKind_slotMask, BitVec.and_allOnes]
    _ = o.kind := by rw [h, slotPattern, slotKind_makeSlot]

theorem slotKind_encodeOperand (o : Operand) : slotKind (encodeOperand o) = o.kind := by
  cases o <;> exact slotKind_makeSlot ..

theorem slotSrsv_encodeOperand (o : Operand) : slotSrsv (encodeOperand o) = 0 := by
  cases o <;> exact slotSrsv_makeSlot ..

/-- The width tag is 0 but for an immediate, whose mask leaves it free. -/
theorem slotWt_encodeOperand_and_mask (o : Operand) : slotWt (encodeOperand o) &&& slotWt (slotMask (some o)) = 0 := by
  cases o with
  | reg r => simp [encodeOperand]
  | mem m => simp [encodeOperand]
  | imm d =>
    have hm : slotWt (slotMask (some (.imm d))) = 0 := by simp only [slotMask]; decide
    rw [hm]
    exact BitVec.and_zero

/-- The payload has only the bits its mask leaves free: 3 for a register, 16 for a symbol, all for an immediate. -/
theorem slotPay_encodeOperand_and_mask (o : Operand) :
    slotPay (encodeOperand o) &&& slotPay (slotMask (some o)) = 0 := by
  cases o with
  | reg r =>
    have hm : slotPay (slotMask (some (.reg r))) = 0xFFFFFFF8#32 := by simp only [slotMask]; decide
    rw [hm, encodeOperand, slotPay_makeSlot]
    cases r <;> rfl
  | mem m =>
    have hm : slotPay (slotMask (some (.mem m))) = 0xFFFF#16 ++ 0#16 := by simp only [slotMask]; decide
    have hpay : m.setWidth 32 = 0#16 ++ m := by rw [BitVec.setWidth_eq_append (by decide)]; rfl
    rw [hm, encodeOperand, slotPay_makeSlot, hpay, BitVec.and_append, BitVec.zero_and, BitVec.and_zero]
    rfl
  | imm d =>
    have hm : slotPay (slotMask (some (.imm d))) = 0 := by simp only [slotMask]; decide
    rw [hm]
    exact BitVec.and_zero

/-- The slot made from an operand passes that operand's mask test. -/
theorem encodeSlot_and_mask (o : Option Operand) : encodeSlot o &&& slotMask o = slotPattern o := by
  cases o with
  | none => rfl
  | some o =>
    refine slot_and_eq ?kind ?tag ?reserved ?payload
    case kind =>
      rw [encodeSlot, slotKind_encodeOperand, slotKind_slotMask, slotPattern, slotKind_makeSlot, BitVec.and_allOnes]
    case tag => rw [encodeSlot, slotWt_encodeOperand_and_mask, slotPattern, slotWt_makeSlot]
    case reserved =>
      rw [encodeSlot, slotSrsv_encodeOperand, slotPattern, slotSrsv_makeSlot]
      exact BitVec.zero_and
    case payload => rw [encodeSlot, slotPay_encodeOperand_and_mask, slotPattern, slotPay_makeSlot]

theorem encode_and_mask (i : Instr) : encode i &&& (rowOf i).mask = (rowOf i).pattern := by
  obtain ⟨hopc, hnops, hrsv, hs0, hs1⟩ := encodeRaw_fields i.toRaw
  rw [word_and_mask_iff, encode, hs0, hs1]
  exact ⟨hopc, hnops, hrsv, encodeSlot_and_mask _, encodeSlot_and_mask _⟩

/-- A form is Syscall, or a two-operand opcode with a legal pair (30_encoding R91). -/
theorem eq_syscall_or_selectPair (i : Instr) :
    i = .syscall ∨ ∃ opc a b, i.toRaw = ⟨opc, 2, [a, b]⟩ ∧ (opc = 1 ∨ opc = 2 ∨ opc = 3) ∧
      selectPair opc a b = .ok i := by
  cases i
  case syscall => exact .inl rfl
  all_goals exact .inr ⟨_, _, _, rfl, by decide, rfl⟩

/-- A well-formed word that passes a form's mask test decodes to a form of the same row. -/
theorem decodeWord_of_mask {w : W96} {i : Instr} (hok : wordOk w = true)
    (h : w &&& (rowOf i).mask = (rowOf i).pattern) : ∃ j, decodeWord w = .ok j ∧ rowOf j = rowOf i := by
  rcases eq_syscall_or_selectPair i with rfl | ⟨opc, a, b, hraw, hopc, hsel⟩
  · exact ⟨.syscall, decodeWord_eq_ok_iff.2 (h.symm.trans BitVec.and_allOnes), rfl⟩
  · obtain ⟨ho, hn, -, h0, h1⟩ := word_and_mask_iff.1 h
    rw [hraw] at ho hn h0 h1
    obtain rfl : wordOpc w = opc := ho
    rw [decodeWord_two hok hopc hn]
    have hx := sameKind_operandOf (slotKind_of_mask h0)
    have hy := sameKind_operandOf (slotKind_of_mask h1)
    exact selectPair_of_sameKind hx hy hsel

/-- Settles O5: a word that decodes is its form's encoding, which passes the test; and the test fixes opcode, count and
operand kinds, which fix the form. -/
theorem formIsMaskMatch : Obligations.FormIsMaskMatch := by
  refine fun w hok => ⟨fun i h => ?_, fun i => decodeWord_of_mask hok⟩
  rw [← decodedWordIsItsEncoding w i h]
  exact encode_and_mask i

/-! ## The words that are no form -/

theorem executeWord_of_error {w : W96} {e : DecodeReject} (s : State) (h : decodeWord w = .error e) :
    executeWord w s = .next (raise e.fatal s) := by
  rw [executeWord, h]

theorem arityOf_eq_none {opc : BitVec 8} (h : opc ∉ [1#8, 2#8, 3#8, 4#8]) : arityOf opc = none := by
  simp only [List.mem_cons, List.not_mem_nil, or_false, not_or] at h
  obtain ⟨h1, h2, h3, h4⟩ := h
  simp [arityOf, opcMov, opcAdd, opcSub, opcSyscall, h1, h2, h3, h4]

theorem arityOf_eq_two {opc : BitVec 8} (h : opc = 1 ∨ opc = 2 ∨ opc = 3) : arityOf opc = some 2 :=
  if_pos h

/-- An opcode without arity is rejected (40_decode R113). -/
theorem decodeWord_unimplemented {w : W96} (hok : wordOk w = true) (h : arityOf (wordOpc w) = none) :
    decodeWord w = .error (.unimplementedOpcode (wordOpc w)) := by
  have hr : arityOf (wordRaw w).opc = none := h
  rw [decodeWord_of_wordOk hok, selectForm, hr]
  rfl

/-- A count that is not the opcode's arity is rejected (40_decode R114). -/
theorem decodeWord_wrongArity {w : W96} {n : BitVec 4} (hok : wordOk w = true) (h : arityOf (wordOpc w) = some n)
    (hn : wordNops w ≠ n) : decodeWord w = .error (.wrongArity (wordNops w)) := by
  have hr : arityOf (wordRaw w).opc = some n := h
  rw [decodeWord_of_wordOk hok, selectForm, hr]
  exact if_neg hn

theorem decodeWord_immediateDestination {w : W96} (hok : wordOk w = true)
    (hopc : wordOpc w = 1 ∨ wordOpc w = 2 ∨ wordOpc w = 3) (hn : wordNops w = 2)
    (h0 : slotKind (wordSlot0 w) = kindImm) : decodeWord w = .error .immediateDestination := by
  rw [decodeWord_two hok hopc hn, operandOf_imm h0]
  rfl

theorem decodeWord_memoryToMemory {w : W96} (hok : wordOk w = true)
    (hopc : wordOpc w = 1 ∨ wordOpc w = 2 ∨ wordOpc w = 3) (hn : wordNops w = 2)
    (h0 : slotKind (wordSlot0 w) = kindMem) (h1 : slotKind (wordSlot1 w) = kindMem) :
    decodeWord w = .error .memoryToMemory := by
  rw [decodeWord_two hok hopc hn, operandOf_mem h0, operandOf_mem h1]
  rfl

/-- Settles O6: the decoder's reject of each kind of word, and the fault entry of each reject. -/
theorem rejectedWordsFault : Obligations.RejectedWordsFault := by
  intro w s
  have hop : wordOpc w ∈ [1#8, 2#8, 3#8] → wordOpc w = 1 ∨ wordOpc w = 2 ∨ wordOpc w = 3 := by simp
  refine ⟨fun hw => ?illFormed, fun hok ho => ?opcode, fun hok ho hn => ?arityTwo, fun hok ho hn => ?arityZero,
    fun hok ho hn h0 => ?immediate, fun hok ho hn h0 h1 => ?memory⟩
  case illFormed => exact executeWord_of_error s (decodeWord_of_not_wordOk hw)
  case opcode => exact executeWord_of_error s (decodeWord_unimplemented hok (arityOf_eq_none ho))
  case arityTwo => exact executeWord_of_error s (decodeWord_wrongArity hok (arityOf_eq_two (hop ho)) hn)
  case arityZero => exact executeWord_of_error s (decodeWord_wrongArity hok (by rw [ho]; rfl) hn)
  case immediate => exact executeWord_of_error s (decodeWord_immediateDestination hok (hop ho) hn h0)
  case memory => exact executeWord_of_error s (decodeWord_memoryToMemory hok (hop ho) hn h0 h1)

end Sys2Proof
end

section
/-! PROOFS. Decode and execute: the unimplemented opcodes, precise instruction faults, fetch, one step as two halves,
the `run` request, and the end of every run (40_decode R110 to R113, R120 to R124, 70_reset R216). -/

namespace Sys2Proof.Machine

/-! ## What a word and an instruction answer -/

theorem executeWord_of_ok {w : W96} {i : Instr} (s : State) (h : decodeWord w = .ok i) :
    executeWord w s = exec i s := by
  rw [executeWord, h]

/-- Settles O7: the fault entry of the decoder's reject has the record's fields. -/
theorem unimplementedOpcodeIsFatal : Obligations.UnimplementedOpcodeIsFatal := by
  intro w s hok hopc
  exact ⟨_, executeWord_of_error s (decodeWord_unimplemented hok (arityOf_eq_none hopc)), rfl, rfl, rfl, rfl⟩

/-- Settles O37: of the three ways an instruction ends, only the memory fault ends in Halted(Fault). -/
theorem faultingInstructionWritesNothing : Obligations.FaultingInstructionWritesNothing := by
  intro i s t hexec hst
  cases ends_of_exec hexec with
  | completes _ => cases hst
  | faults hcause => exact ⟨_, hcause, rfl⟩
  | exits => cases hst

/-- Executing a word moves no IP: the fetch has moved it (40_decode R111). -/
theorem ip_of_executeWord {s t : State} {w : W96} (h : executeWord w s = .next t) : t.ip = s.ip := by
  rcases ends_or_raise_of_executeWord h with he | ⟨e, rfl⟩
  · exact he.ip_eq
  · exact raise_ip ..

/-! ## A step by the run state -/

theorem step_idle {s : State} (h : s.st = .idle) : step s = .next (runRequest s) := by
  rw [step, h]

theorem step_fetching {s : State} (h : s.st = .fetching) : step s = fetchExecute s := by
  rw [step, h]

theorem step_decoding {s : State} {opc : BitVec 8} (h : s.st = .decoding opc) : step s = decodeExecute opc s := by
  rw [step, h]

theorem step_halted {s : State} {r : HaltReason} (h : s.st = .halted r) : step s = .fault .alreadyHalted := by
  rw [step, h]

theorem runRequest_idle {s : State} (h : s.st = .idle) : runRequest s = { s with st := .fetching } := by
  rw [runRequest, h]

theorem runRequest_of_not_idle {s : State} (h : s.st ≠ .idle) : runRequest s = s := by
  unfold runRequest
  split
  · contradiction
  · rfl

theorem decodeExecute_of_fetchedWord {opc : BitVec 8} {s : State} {w : W96} (h : fetchedWord opc s = some w) :
    decodeExecute opc s = executeWord w s := by
  rw [decodeExecute, h]

theorem fetchExecute_of_fetch {s t : State} {opc : BitVec 8} (hf : fetch s = .next t) (ht : t.st = .decoding opc) :
    fetchExecute s = decodeExecute opc t := by
  simp only [fetchExecute, hf, ht]

/-- Settles O41: at the end of the program the step is the fetch; at a word the fetch moves IP, within its 16 bits, and
the execution that follows answers a next state and moves it no more. -/
theorem fetchAdvancesIp : Obligations.FetchAdvancesIp := by
  intro s hst hl
  refine ⟨fun hend => ⟨fetch_end hl hend, ?_⟩, fun w hw => ⟨fetch_word hl hw, toNat_succ ?_, ?_⟩⟩
  · rw [step_end hst hl hend, fetch_end hl hend]
  · exact (ip_lt_of_fetched hw).trans_le hl
  · obtain ⟨t, ht, -⟩ := executeWord_ends w (afterFetch w s)
    exact ⟨t, (step_word hst hl hw).trans ht, ip_of_executeWord ht⟩

/-- Settles O42: the step is the execution of the word after the fetch, by what the decoder answers. -/
theorem stepRunsDecodedInstruction : Obligations.StepRunsDecodedInstruction := by
  intro s w hst hl hw
  have hstep := step_word hst hl hw
  exact ⟨fun i hi => hstep.trans (executeWord_of_ok _ hi), fun e he => hstep.trans (executeWord_of_error _ he)⟩

/-- Settles O43: both sides are the second half taken in the state after the fetch. -/
theorem stepIsFetchThenDecode : Obligations.StepIsFetchThenDecode := by
  intro s t opc hst hf ht
  calc step s = fetchExecute s := step_fetching hst
    _ = decodeExecute opc t := fetchExecute_of_fetch hf ht
    _ = step t := (step_decoding ht).symm

/-- Settles O45: the request and the step by the run state. -/
theorem runOnlyFromIdle : Obligations.RunOnlyFromIdle :=
  fun _ => ⟨fun h => ⟨runRequest_idle h, step_idle h⟩, runRequest_of_not_idle, fun _ h => step_halted h⟩

/-! ## Every run ends -/

/-- A bound on the steps a run still takes: one for each word not yet fetched, one for the end of the program, and one
more for `run` or for the instruction already fetched. -/
def State.stepsLeft (s : State) : Nat :=
  match s.st with
  | .idle | .decoding _ => s.code.length - s.ip.toNat + 2
  | .fetching => s.code.length - s.ip.toNat + 1
  | .halted _ => 0

theorem stepsLeft_idle {s : State} (h : s.st = .idle) : s.stepsLeft = s.code.length - s.ip.toNat + 2 := by
  rw [State.stepsLeft, h]

theorem stepsLeft_decoding {s : State} {opc : BitVec 8} (h : s.st = .decoding opc) :
    s.stepsLeft = s.code.length - s.ip.toNat + 2 := by
  rw [State.stepsLeft, h]

theorem stepsLeft_fetching {s : State} (h : s.st = .fetching) : s.stepsLeft = s.code.length - s.ip.toNat + 1 := by
  rw [State.stepsLeft, h]

theorem stepsLeft_halted {s : State} {r : HaltReason} (h : s.st = .halted r) : s.stepsLeft = 0 := by
  rw [State.stepsLeft, h]

theorem stepsLeft_le (s : State) : s.stepsLeft ≤ s.code.length - s.ip.toNat + 2 := by
  unfold State.stepsLeft
  split <;> omega

/-- After an instruction the run is in Fetching, with IP and the program as they were, or over (40_decode R121). -/
theorem stepsLeft_of_ends {s t : State} (h : Ends s t) : t.stepsLeft ≤ s.code.length - s.ip.toNat + 1 := by
  cases h with
  | @completes u e =>
    rw [stepsLeft_fetching (complete_st u), complete_code, complete_ip, e.code, e.ip]
  | faults _ => exact Nat.zero_le _
  | exits => exact Nat.zero_le _

theorem stepsLeft_of_executeWord {s t : State} {w : W96} (h : executeWord w s = .next t) :
    t.stepsLeft ≤ s.code.length - s.ip.toNat + 1 := by
  rcases ends_or_raise_of_executeWord h with he | ⟨e, rfl⟩
  · exact stepsLeft_of_ends he
  · exact Nat.zero_le _

/-- Every step brings the end of the run nearer (40_decode R124). -/
theorem stepsLeft_lt_of_step {s t : State} (h : step s = .next t) : t.stepsLeft < s.stepsLeft := by
  cases steps_of_step h with
  | run hst =>
    rw [stepsLeft_idle hst, stepsLeft_fetching rfl]
    exact Nat.lt_succ_self _
  | endOfCode hst _ _ =>
    rw [stepsLeft_fetching hst, stepsLeft_halted rfl]
    exact Nat.succ_pos _
  | @word w _ hst hl hw he =>
    have hlt := ip_lt_of_fetched hw
    have hip : (afterFetch w s).ip.toNat = s.ip.toNat + 1 := toNat_succ (by omega)
    have hcode : (afterFetch w s).code = s.code := rfl
    have hle := stepsLeft_of_executeWord he
    rw [stepsLeft_fetching hst]
    rw [hip, hcode] at hle
    omega
  | half hst _ he =>
    rw [stepsLeft_decoding hst]
    exact Nat.lt_succ_of_le (stepsLeft_of_executeWord he)

/-- No state of the invariant is stuck before the run is over: a fetch finds a word or the end, and Decoding has fetched
one (10_state R22, 40_decode R111). -/
theorem step_next_of_inv {s : State} (h : s.Inv) (hh : ¬ s.isHalted) : ∃ t, step s = .next t := by
  obtain ⟨-, hl, hip, hrun⟩ := h
  cases hst : s.st with
  | idle => exact ⟨_, step_idle hst⟩
  | fetching =>
    rcases hip.eq_or_lt with hend | hlt
    · exact ⟨_, step_end hst hl hend⟩
    · have hw := List.getElem?_eq_getElem hlt
      obtain ⟨t, ht, -⟩ := executeWord_ends s.code[s.ip.toNat] (afterFetch s.code[s.ip.toNat] s)
      exact ⟨t, (step_word hst hl hw).trans ht⟩
  | decoding opc =>
    simp only [State.runOk, hst] at hrun
    obtain ⟨-, -, w, hw⟩ := hrun
    obtain ⟨t, ht, -⟩ := executeWord_ends w s
    exact ⟨t, (step_decoding hst).trans ((decodeExecute_of_fetchedWord hw).trans ht)⟩
  | halted r => exact absurd ⟨r, hst⟩ hh

theorem run_succ {M : Host.Core} {s t : M.State} (k : Nat) (h : M.step s = .next t) :
    M.run (k + 1) s = M.run k t := by
  simp only [Host.Core.run, h]

/-- From a state of the invariant the run is over within `stepsLeft` steps (70_reset R216). -/
theorem halts_within_stepsLeft (s : State) (h : s.Inv) :
    ∃ k, k ≤ s.stepsLeft ∧ ∃ t, core.run k s = .next t ∧ t.isHalted := by
  by_cases hh : s.isHalted
  · exact ⟨0, Nat.zero_le _, s, rfl, hh⟩
  · obtain ⟨u, hu⟩ := step_next_of_inv h hh
    have hlt := stepsLeft_lt_of_step hu
    obtain ⟨k, hk, t, ht, hend⟩ := halts_within_stepsLeft u (invariantKeptByStep s u h hu)
    exact ⟨k + 1, hk.trans_lt hlt, t, (run_succ (M := core) k hu).trans ht, hend⟩
termination_by s.stepsLeft

/-- Settles O55: every step keeps the invariant and lowers `stepsLeft`, which the stated bound covers. -/
theorem everyRunHalts : Obligations.EveryRunHalts := by
  intro s h
  obtain ⟨k, hk, t, ht, hend⟩ := halts_within_stepsLeft s h
  exact ⟨k, hk.trans (stepsLeft_le s), t, ht, hend⟩

end Sys2Proof.Machine
end

section
/-! PROOFS. Mov: its five forms and their memory faults (41_mov R140 to R145, 10_state R15, R19, 20_memory R57, R58).

A Mov from a cell or an immediate is settled by what its source resolves to, a Mov to a cell by whether the cell is
declared; each destination has one lemma for completion and one for its fault. -/

namespace Sys2Proof.Machine

/-! ## Between registers -/

theorem movRegReg_self (r : RegView) (s : State) : movRegReg r r s = emit [.diagSelfMove r] s :=
  if_pos rfl

/-- The move between the two views of one family only emits: it writes the family's own lanes back (10_state R19). -/
theorem movRegReg_related {rd rs : RegView} (s : State) (hne : rd ≠ rs) (hf : rd.fam = rs.fam) :
    movRegReg rd rs s =
      emit (widthDiags s.widenDiag (.reg rd) rd.width (s.regData rs) ++ [.regSet rd (s.reg rd)]) s := by
  have hlanes : s.gpr.writeLow rd ((s.regData rs).width.narrower rd.width) (s.regData rs).value = s.gpr := by
    rw [width_regData, value_regData]
    exact writeLow_related s.gpr hf
  rw [movRegReg, if_neg hne, if_pos hf, setReg, writeLanes, hlanes, List.append_assoc]
  rfl

theorem movRegReg_unrelated {rd rs : RegView} (s : State) (hf : rd.fam ≠ rs.fam) :
    movRegReg rd rs s = copyReg rd (s.regData rs) s := by
  have hne : rd ≠ rs := fun h => hf (congrArg RegView.fam h)
  rw [movRegReg, if_neg hne, if_neg hf]

theorem exec_movRR (rd rs : RegView) (s : State) :
    exec (.movRR rd rs) s = .next (complete (movRegReg rd rs s)) := rfl

/-- The plain copy writes the source's value to every lane of the destination view (41_mov R140). -/
theorem lanesWritten_copyReg (r : RegView) (d : Data) (s : State) :
    LanesWritten r r.width d.value s (copyReg r d s) :=
  lanes_writeLow s.gpr r r.width d.value

/-- After the plain copy the view reads as the value cut to its width. -/
theorem reg_copyReg (r : RegView) (d : Data) (s : State) :
    (copyReg r d s).reg r = (Data.ofValue r.width d.value).value :=
  read_writeLow_whole s.gpr r d.value

/-- Settles O13: the three branches of R140; completion changes the run state only. -/
theorem movRegisterToRegister : Obligations.MovRegisterToRegister := by
  refine fun rd rs s => ⟨?self, fun hne hf => ?related, fun hf => ?unrelated⟩
  case self =>
    rintro rfl
    rw [exec_movRR, movRegReg_self]
    rfl
  case related =>
    rw [exec_movRR, movRegReg_related s hne hf, List.append_assoc]
    rfl
  case unrelated =>
    rw [exec_movRR, movRegReg_unrelated s hf, ← value_regData s rs]
    exact ⟨_, rfl, rfl, lanesWritten_copyReg rd (s.regData rs) s, reg_copyReg rd (s.regData rs) s⟩

/-! ## To a register from a cell or an immediate -/

/-- A Mov to a register whose source resolves to `d` completes with the register rule (10_state R15). -/
theorem movesToRegister_of_srcData (rd : RegView) {o : Operand} {d : Data} {s : State} (h : srcData o s = .ok d) :
    MovesToRegister rd d s (finish (movToReg rd o s) s) := by
  have hok : movToReg rd o s = .ok (setReg rd d s) := by rw [movToReg, h]
  rw [hok, finish_ok]
  exact ⟨_, rfl, rfl, lane_setReg rd d s⟩

/-- A Mov to a register whose source does not resolve ends in the source's fault (40_decode R116, R120). -/
theorem finish_movToReg_of_srcData_error (rd : RegView) {o : Operand} {f : Fatal} {s : State}
    (h : srcData o s = .error f) : finish (movToReg rd o s) s = .next (raise f s) := by
  have herr : movToReg rd o s = .error f := by rw [movToReg, h]
  rw [herr, finish_error]

/-- Settles O14: a readable cell resolves to its Data. -/
theorem movLoadsReadableCell : Obligations.MovLoadsReadableCell :=
  fun rd m _ _ hc hr => movesToRegister_of_srcData rd (o := .mem m) (memRead_readable hc hr)

/-- Settles O15: an immediate resolves to itself in every state. -/
theorem movLoadsImmediate : Obligations.MovLoadsImmediate :=
  fun rd d _ => movesToRegister_of_srcData rd (o := .imm d) rfl

/-! ## To a cell -/

theorem movToMem_of_srcData {o : Operand} {d : Data} {s : State} (m : SymId) (h : srcData o s = .ok d) :
    movToMem m o s = memWrite .operand0 m d s := by
  rw [movToMem, h]

theorem onlyCellIs_storeCell (m : SymId) (c : MemCell) (d : Data) (es : List Event) (s : State) :
    OnlyCellIs m ⟨c.sect, d, true⟩ s (storeCell m c d es s) :=
  ⟨cellAt_storeCell_same m c d es s, fun _ ha => cellAt_storeCell_other c d es s ha⟩

/-- A Mov to a declared cell whose source resolves to `d` completes with the whole cell written (20_memory R58). -/
theorem movesToCell_of_srcData {m : SymId} {c : MemCell} {o : Operand} {d : Data} {s : State}
    (hc : s.mem.cellAt m.toNat = some c) (h : srcData o s = .ok d) :
    MovesToCell m c d s (finish (movToMem m o s) s) := by
  rw [movToMem_of_srcData m h, memWrite_declared d hc, finish_ok]
  exact ⟨_, rfl, rfl, onlyCellIs_storeCell m c _ (widthDiags s.widenDiag (.sym m) c.data.width d) s⟩

/-- A Mov to an undeclared cell is the fault entry for operand 0, whatever its source resolves to (40_decode R117). -/
theorem finish_movToMem_absent {m : SymId} {o : Operand} {d : Data} {s : State}
    (hc : s.mem.cellAt m.toNat = none) (h : srcData o s = .ok d) :
    finish (movToMem m o s) s = .next (raise ⟨.undeclaredMemoryAccess, .operand0, m.setWidth 32⟩ s) := by
  rw [movToMem_of_srcData m h, memWrite_absent d hc, finish_error]

/-- Settles O16: a register and an immediate resolve in every state. -/
theorem movStoresToDeclaredCell : Obligations.MovStoresToDeclaredCell :=
  fun _ _ _ hc => ⟨fun rs => movesToCell_of_srcData (o := .reg rs) hc rfl,
    fun d => movesToCell_of_srcData (o := .imm d) hc rfl⟩

/-! ## The memory faults -/

/-- Settles O17: a load ends in MemRead's fault, a store in MemWrite's. -/
theorem movMemoryFaults : Obligations.MovMemoryFaults := by
  refine fun m s => ⟨fun hc => ⟨fun rd => ?load, fun rs => ?storeReg, fun d => ?storeImm⟩,
    fun c hc hw hz rd => ?unwritten⟩
  case load => exact finish_movToReg_of_srcData_error rd (o := .mem m) (memRead_absent hc)
  case storeReg => exact finish_movToMem_absent (o := .reg rs) hc rfl
  case storeImm => exact finish_movToMem_absent (o := .imm d) hc rfl
  case unwritten => exact finish_movToReg_of_srcData_error rd (o := .mem m) (memRead_unwritten hc hw hz)

end Sys2Proof.Machine
end

section
/-! PROOFS. Add and Sub: the ALU's two operations and their laws, the ten forms with their memory faults, OF of 16-bit
operands, and the cause no step raises (42_add_sub R150 to R166, 40_decode R116 to R120).

An Add or a Sub is settled by the value its source yields and by what the ALU answers for it; each kind of destination
has one lemma for completion and one for its fault, for both operations. -/

namespace Sys2Proof.Machine

/-! ## The ALU -/

theorem execute_off (a b : BitVec 32) : Alu.execute ⟨.off, a, b⟩ = none := rfl

theorem execute_add (a b : BitVec 32) : Alu.execute ⟨.add, a, b⟩ = some (a + b, addOverflow a b) := by
  rw [BitVec.add_def]
  rfl

/-- The difference of the two numbers, wrapped, is the words' difference. -/
theorem ofInt_toNat_sub (a b : BitVec 32) : BitVec.ofInt 32 ((a.toNat : Int) - b.toNat) = a - b := by
  apply BitVec.eq_of_toInt_eq
  rw [BitVec.toInt_ofInt, BitVec.toInt_sub, BitVec.toInt_eq_toNat_bmod, BitVec.toInt_eq_toNat_bmod]
  simp

theorem execute_sub (a b : BitVec 32) : Alu.execute ⟨.sub, a, b⟩ = some (a - b, subOverflow a b) := by
  rw [← ofInt_toNat_sub]
  rfl

theorem addOverflow_iff (a b : BitVec 32) : addOverflow a b = true ↔ 2 ^ 32 ≤ a.toNat + b.toNat :=
  decide_eq_true_iff

theorem subOverflow_iff (a b : BitVec 32) : subOverflow a b = true ↔ a.toNat < b.toNat :=
  decide_eq_true_iff

/-- Settles O18: the ALU answers the words' sum, with the carry by its definition. -/
theorem aluAddWrapsWithCarry : Obligations.AluAddWrapsWithCarry :=
  fun a b => ⟨_, _, execute_add a b, BitVec.toNat_add a b, addOverflow_iff a b⟩

/-- Settles O19: the ALU answers the words' difference, with the borrow by its definition. -/
theorem aluSubWrapsWithBorrow : Obligations.AluSubWrapsWithBorrow := by
  refine fun a b => ⟨_, _, execute_sub a b, ?_, subOverflow_iff a b⟩
  rw [BitVec.toNat_sub]
  omega

/-! ## The laws of the ALU (42_add_sub R154) -/

theorem addOverflow_comm (a b : BitVec 32) : addOverflow a b = addOverflow b a := by
  rw [addOverflow, addOverflow, Nat.add_comm]

theorem execute_add_comm (a b : BitVec 32) : Alu.execute ⟨.add, a, b⟩ = Alu.execute ⟨.add, b, a⟩ := by
  rw [execute_add, execute_add, BitVec.add_comm, addOverflow_comm]

/-- A sum carries exactly when it wraps below its first operand. -/
theorem addOverflow_iff_lt_left (a b : BitVec 32) : addOverflow a b = true ↔ (a + b).toNat < a.toNat := by
  rw [addOverflow_iff, BitVec.toNat_add]
  omega

theorem addOverflow_iff_lt_right (a b : BitVec 32) : addOverflow a b = true ↔ (a + b).toNat < b.toNat := by
  rw [addOverflow_comm, BitVec.add_comm]
  exact addOverflow_iff_lt_left b a

/-- Subtracting a non-zero word borrows exactly when adding its negation does not carry. -/
theorem subOverflow_eq_not_addOverflow_neg (a : BitVec 32) {b : BitVec 32} (hb : b ≠ 0) :
    subOverflow a b = !addOverflow a (-b) := by
  have hpos : b.toNat ≠ 0 := fun h => hb (BitVec.eq_of_toNat_eq h)
  have hneg : (-b).toNat = 2 ^ 32 - b.toNat := by
    rw [BitVec.toNat_neg]
    omega
  rw [Bool.eq_not, ne_eq, Bool.eq_iff_iff, subOverflow_iff, addOverflow_iff, hneg]
  omega

theorem addOverflow_zero (a : BitVec 32) : addOverflow a 0 = false :=
  decide_eq_false (Nat.not_le.2 a.isLt)

theorem subOverflow_zero (a : BitVec 32) : subOverflow a 0 = false :=
  decide_eq_false (Nat.not_lt_zero a.toNat)

theorem subOverflow_self (a : BitVec 32) : subOverflow a a = false :=
  decide_eq_false (Nat.lt_irrefl a.toNat)

theorem subOverflow_zero_left {a : BitVec 32} (ha : a ≠ 0) : subOverflow 0 a = true :=
  (subOverflow_iff 0 a).2 (Nat.pos_of_ne_zero fun h => ha (BitVec.eq_of_toNat_eq h))

/-- Settles O20, law by law. -/
theorem aluLaws : Obligations.AluLaws := by
  refine fun a b => ⟨execute_add_comm a b, ?carry, ?negation, ?addZero, ?subZero, ?subSelf, ?zeroSub⟩
  case carry =>
    intro r ovf h
    rw [execute_add] at h
    cases h
    exact ⟨addOverflow_iff_lt_left a b, addOverflow_iff_lt_right a b, subOverflow (a + b) b,
      by rw [execute_sub, BitVec.add_sub_cancel]⟩
  case negation =>
    intro r ovf r' ovf' hs ha
    rw [execute_sub] at hs
    rw [execute_add] at ha
    cases hs
    cases ha
    exact ⟨BitVec.sub_eq_add_neg a b, subOverflow_eq_not_addOverflow_neg a⟩
  case addZero => rw [execute_add, add_zero, addOverflow_zero]
  case subZero => rw [execute_sub, sub_zero, subOverflow_zero]
  case subSelf => rw [execute_sub, sub_self, subOverflow_self]
  case zeroSub =>
    intro ha
    rw [execute_sub, zero_sub, subOverflow_zero_left ha]

/-! ## The value a source yields -/

/-- The source operand resolves, to a Data value of the number `v` (40_decode R116). -/
def SourceValue (o : Operand) (s : State) (v : BitVec 32) : Prop := ∃ d, srcData o s = .ok d ∧ d.value = v

theorem sourceValue_reg (r : RegView) (s : State) : SourceValue (.reg r) s (s.reg r) :=
  ⟨s.regData r, rfl, value_regData s r⟩

theorem sourceValue_mem {m : SymId} {s : State} {c : MemCell} (h : s.mem.cellAt m.toNat = some c) (hr : c.readable) :
    SourceValue (.mem m) s c.data.value :=
  ⟨c.data, memRead_readable h hr, rfl⟩

theorem sourceValue_imm (d : Data) (s : State) : SourceValue (.imm d) s d.value :=
  ⟨d, rfl, rfl⟩

/-! ## To a register -/

theorem aluStage_of_execute {mode : AluMode} {a b r : BitVec 32} {ovf : Bool} (write : BitVec 32 → State → State)
    (s : State) (h : Alu.execute ⟨mode, a, b⟩ = some (r, ovf)) :
    aluStage mode a b write s = .ok (setOverflowFlag ovf (write r (loadAlu mode a b s))) := by
  rw [aluStage, loadAlu_alu, h]

/-- The whole view is written with the result's low bytes, and reads as the result cut to it (40_decode R119). -/
theorem lanesWritten_writeResultReg (rd : RegView) (r : BitVec 32) (s : State) :
    LanesWritten rd rd.width r s (writeResultReg rd r s) :=
  lanes_writeLow s.gpr rd rd.width r

theorem reg_writeResultReg (rd : RegView) (r : BitVec 32) (s : State) :
    (writeResultReg rd r s).reg rd = (Data.ofValue rd.width r).value :=
  read_writeLow_whole s.gpr rd r

/-- An Add or Sub to a register whose source yields `v` completes with what the ALU answers (42_add_sub R155). -/
theorem aluToRegister_of_sourceValue {mode : AluMode} {rd : RegView} {o : Operand} {v r : BitVec 32} {ovf : Bool}
    {s : State} (hv : SourceValue o s v) (hx : Alu.execute ⟨mode, s.reg rd, v⟩ = some (r, ovf)) :
    AluToRegister mode rd v r ovf s (finish (aluToReg mode rd o s) s) := by
  obtain ⟨d, hd, rfl⟩ := hv
  have hok : aluToReg mode rd o s =
      .ok (setOverflowFlag ovf (writeResultReg rd r (loadAlu mode (s.reg rd) d.value s))) := by
    rw [aluToReg, hd]
    exact aluStage_of_execute (writeResultReg rd) s hx
  rw [hok, finish_ok]
  exact ⟨_, rfl, rfl, lanesWritten_writeResultReg rd r s, reg_writeResultReg rd r s⟩

/-- Settles O21: the three sources, each with the value it yields. -/
theorem addToRegisterResult : Obligations.AddToRegisterResult := fun _ s =>
  ⟨fun rs => aluToRegister_of_sourceValue (sourceValue_reg rs s) (execute_add ..),
    fun _ _ hc hr => aluToRegister_of_sourceValue (sourceValue_mem hc hr) (execute_add ..),
    fun d => aluToRegister_of_sourceValue (sourceValue_imm d s) (execute_add ..)⟩

/-- Settles O22: as for Add, with what the ALU answers in mode Sub. -/
theorem subFromRegisterResult : Obligations.SubFromRegisterResult := fun _ s =>
  ⟨fun rs => aluToRegister_of_sourceValue (sourceValue_reg rs s) (execute_sub ..),
    fun _ _ hc hr => aluToRegister_of_sourceValue (sourceValue_mem hc hr) (execute_sub ..),
    fun d => aluToRegister_of_sourceValue (sourceValue_imm d s) (execute_sub ..)⟩

/-! ## To a cell -/

/-- An Add or Sub to a readable cell whose source yields `v` completes with what the ALU answers (42_add_sub R155). -/
theorem aluToCell_of_sourceValue {mode : AluMode} {m : SymId} {c : MemCell} {o : Operand} {v r : BitVec 32} {ovf : Bool}
    {s : State} (hc : s.mem.cellAt m.toNat = some c) (hr : c.readable) (hv : SourceValue o s v)
    (hx : Alu.execute ⟨mode, c.data.value, v⟩ = some (r, ovf)) :
    AluToCell mode m c v r ovf s (finish (aluToMem mode m o s) s) := by
  obtain ⟨d, hd, rfl⟩ := hv
  have hok : aluToMem mode m o s =
      .ok (setOverflowFlag ovf (writeResultMem m c r (loadAlu mode c.data.value d.value s))) := by
    rw [aluToMem, hd, readableCell_readable hc hr]
    exact aluStage_of_execute (writeResultMem m c) s hx
  rw [hok, finish_ok]
  exact ⟨_, rfl, rfl, onlyCellIs_storeCell m c _ (lossDiags (.sym m) c.data.width r) s⟩

/-- Settles O23: a register and an immediate yield a value in every state. -/
theorem addToCellResult : Obligations.AddToCellResult := fun _ s _ hc hr =>
  ⟨fun rs => aluToCell_of_sourceValue hc hr (sourceValue_reg rs s) (execute_add ..),
    fun d => aluToCell_of_sourceValue hc hr (sourceValue_imm d s) (execute_add ..)⟩

/-- Settles O24: as for Add, with what the ALU answers in mode Sub. -/
theorem subFromCellResult : Obligations.SubFromCellResult := fun _ s _ hc hr =>
  ⟨fun rs => aluToCell_of_sourceValue hc hr (sourceValue_reg rs s) (execute_sub ..),
    fun d => aluToCell_of_sourceValue hc hr (sourceValue_imm d s) (execute_sub ..)⟩

/-! ## The memory faults -/

/-- The cell cannot be read, and why: it is not declared, or it is zero and was never written (20_memory R57). -/
def CellUnreadable (m : SymId) (s : State) (cause : FaultCause) : Prop :=
  s.mem.cellAt m.toNat = none ∧ cause = .undeclaredMemoryAccess ∨
    (∃ c, s.mem.cellAt m.toNat = some c ∧ c.written = false ∧ c.data.value = 0) ∧ cause = .useOfUninitializedMemory

theorem readableCell_unreadable {m : SymId} {s : State} {cause : FaultCause} (op : FaultOperand)
    (h : CellUnreadable m s cause) : readableCell op m s = .error ⟨cause, op, m.setWidth 32⟩ := by
  rcases h with ⟨hc, rfl⟩ | ⟨⟨c, hc, hw, hz⟩, rfl⟩
  · exact readableCell_absent hc
  · exact readableCell_unwritten hc hw hz

/-- An unreadable cell as source ends the instruction in the fault for operand 1 (40_decode R116, R120). -/
theorem finish_aluToReg_unreadable {m : SymId} {s : State} {cause : FaultCause} (mode : AluMode) (rd : RegView)
    (h : CellUnreadable m s cause) :
    finish (aluToReg mode rd (.mem m) s) s = .next (raise ⟨cause, .operand1, m.setWidth 32⟩ s) := by
  rw [aluToReg, srcData, memRead, readableCell_unreadable .operand1 h, finish_error]

/-- An unreadable cell as destination ends the instruction in the fault for operand 0, whatever the source yields
(40_decode R117, R120). -/
theorem finish_aluToMem_unreadable {m : SymId} {s : State} {cause : FaultCause} (mode : AluMode) {o : Operand}
    {v : BitVec 32} (h : CellUnreadable m s cause) (hv : SourceValue o s v) :
    finish (aluToMem mode m o s) s = .next (raise ⟨cause, .operand0, m.setWidth 32⟩ s) := by
  obtain ⟨d, hd, -⟩ := hv
  rw [aluToMem, hd, readableCell_unreadable .operand0 h, finish_error]

/-- Settles O25: a faulting source names operand 1, a faulting destination operand 0. -/
theorem addSubMemoryFaults : Obligations.AddSubMemoryFaults := fun _ s _ h =>
  ⟨fun rd => ⟨finish_aluToReg_unreadable .add rd h, finish_aluToReg_unreadable .sub rd h⟩,
    fun rs => ⟨finish_aluToMem_unreadable .add h (sourceValue_reg rs s),
      finish_aluToMem_unreadable .sub h (sourceValue_reg rs s)⟩,
    fun d => ⟨finish_aluToMem_unreadable .add h (sourceValue_imm d s),
      finish_aluToMem_unreadable .sub h (sourceValue_imm d s)⟩⟩

/-! ## OF of 16-bit operands -/

theorem overflow_of_aluToRegister {mode : AluMode} {rd : RegView} {v r : BitVec 32} {ovf : Bool} {s : State}
    {o : Result} (h : AluToRegister mode rd v r ovf s o) :
    ∃ t, o = .next t ∧ t.flags.OF = ovf ∧ t.reg rd = (Data.ofValue rd.width r).value := by
  obtain ⟨t, ho, ht, -, hreg⟩ := h
  exact ⟨t, ho, congrArg (fun u => u.flags.OF) ht, hreg⟩

theorem reg_view16_lt (s : State) (f : Family) : (s.reg f.view16).toNat < 2 ^ 16 := by
  have h := read_lt s.gpr f.view16
  rwa [Family.width_view16] at h

/-- Settles O26: the sum of two 16-bit values does not reach 2^32, while the destination keeps 16 bits of it. -/
theorem overflowOfNarrowOperands : Obligations.OverflowOfNarrowOperands := by
  refine fun f g s => ⟨?add, ?sub⟩
  case add =>
    have hf := reg_view16_lt s f
    have hg := reg_view16_lt s g
    obtain ⟨hadd, -, -⟩ := addToRegisterResult f.view16 s
    obtain ⟨t, ht, hOF, hreg⟩ := overflow_of_aluToRegister (hadd g.view16)
    refine ⟨t, ht, hOF.trans (decide_eq_false (by omega)), ?_⟩
    rw [hreg, Family.width_view16, Data.value_ofValue_toNat, BitVec.toNat_add]
    exact Nat.mod_mod_of_dvd _ (by decide)
  case sub =>
    obtain ⟨hsub, -, -⟩ := subFromRegisterResult f.view16 s
    obtain ⟨t, ht, hOF, -⟩ := overflow_of_aluToRegister (hsub g.view16)
    exact ⟨t, ht, by rw [hOF, decide_eq_true_iff]⟩

/-! ## The cause no step raises -/

theorem fatal_cause_ne_aluModeOff (e : DecodeReject) : e.fatal.cause ≠ .aluModeOff := by
  cases e <;> simp [DecodeReject.fatal]

/-- An instruction that ends in Halted(Fault) leaves the cause of a memory fault. -/
theorem cause_of_ends_of_faulted {s t : State} (h : Ends s t) (ht : t.st = .halted .fault) :
    t.fault.cause = .undeclaredMemoryAccess ∨ t.fault.cause = .useOfUninitializedMemory := by
  cases h with
  | completes _ => cases ht
  | faults hf => exact hf
  | exits => cases ht

theorem cause_ne_aluModeOff_of_executeWord {s t : State} {w : W96} (he : executeWord w s = .next t)
    (ht : t.st = .halted .fault) : t.fault.cause ≠ .aluModeOff := by
  rcases ends_or_raise_of_executeWord he with hi | ⟨e, rfl⟩
  · rcases cause_of_ends_of_faulted hi ht with hc | hc <;> simp [hc]
  · exact fatal_cause_ne_aluModeOff e

/-- Settles O39: only the execution of a word enters Halted(Fault), with a memory fault's cause or the decoder's. -/
theorem aluModeOffUnreachable : Obligations.AluModeOffUnreachable := by
  refine ⟨execute_off, fun s t hs ht => ?_⟩
  cases steps_of_step hs with
  | run => cases ht
  | endOfCode => cases ht
  | word _ _ _ he => exact cause_ne_aluModeOff_of_executeWord he ht
  | half _ _ he => exact cause_ne_aluModeOff_of_executeWord he ht

end Sys2Proof.Machine
end

section
/-! PROOFS. Syscall: its numbers and their memory faults (43_syscall R170 to R174, 60_exceptions R181, R182, R188).

Each number has one lemma that says what `exec` runs for it; numbers 1 and 2 are then settled by the cell the buffer
names. -/

namespace Sys2Proof.Machine

/-! ## The number in AX selects the function (43_syscall R170) -/

theorem exec_syscall_exit {s : State} (h : s.reg .ax = 60) : exec .syscall s = syscallExit s :=
  if_pos h

theorem exec_syscall_read {s : State} (h : s.reg .ax = 1) : exec .syscall s = finish (syscallRead s) s := by
  have hExit : s.reg .ax ≠ sysExit := by rw [h]; decide
  exact (if_neg hExit).trans (if_pos h)

theorem exec_syscall_write {s : State} (h : s.reg .ax = 2) : exec .syscall s = finish (syscallWrite s) s := by
  have hExit : s.reg .ax ≠ sysExit := by rw [h]; decide
  have hRead : s.reg .ax ≠ sysRead := by rw [h]; decide
  exact (if_neg hExit).trans ((if_neg hRead).trans (if_pos h))

theorem exec_syscall_unknown {s : State} (hExit : s.reg .ax ≠ 60) (hRead : s.reg .ax ≠ 1) (hWrite : s.reg .ax ≠ 2) :
    exec .syscall s = .next (complete (syscallUnknown s)) :=
  (if_neg hExit).trans ((if_neg hRead).trans (if_neg hWrite))

/-- Settles O31: what the model's `syscallExit` answers. -/
theorem syscallExitEndsRun : Obligations.SyscallExit :=
  fun _ h => exec_syscall_exit h

/-- Settles O34: the event and completion are all there is. -/
theorem syscallUnknownContinues : Obligations.SyscallUnknownContinues :=
  fun _ => exec_syscall_unknown

/-! ## The buffer -/

/-- The buffer id is the low 16 bits of DX (43_syscall R170; decision D10). -/
theorem toNat_syscallBuffer (s : State) : (syscallBuffer s).toNat = (s.reg .dx).toNat % 2 ^ 16 :=
  BitVec.toNat_setWidth 16 (s.reg .dx)

/-- What `io_read` gives has the cell's own width, so that its write cuts nothing and has no diagnostic (43_syscall R172). -/
theorem conv_ioReadData (w : Width) (s : State) : (ioReadData w s).conv w = ioReadData w s :=
  Data.conv_ofValue w _

theorem widthDiags_ioReadData (widen : Bool) (dest : Dest) (w : Width) (s : State) :
    widthDiags widen dest w (ioReadData w s) = [] := by
  have h := widthDiags_same widen dest (ioReadData w s)
  rwa [ioReadData, Data.width_ofValue] at h

theorem syscallRead_declared {s : State} {c : MemCell} (h : s.mem.cellAt (syscallBuffer s).toNat = some c) :
    syscallRead s =
      .ok (storeCell (syscallBuffer s) c (ioReadData c.data.width s) [] { s with ioCalls := s.ioCalls + 1 }) := by
  rw [syscallRead, findCell_declared h]
  have hw := memWrite_declared (op := .noOperand) (s := { s with ioCalls := s.ioCalls + 1 })
    (ioReadData c.data.width s) h
  rwa [conv_ioReadData, widthDiags_ioReadData] at hw

theorem syscallRead_absent {s : State} (h : s.mem.cellAt (syscallBuffer s).toNat = none) :
    syscallRead s = .error ⟨.undeclaredMemoryAccess, .noOperand, (syscallBuffer s).setWidth 32⟩ := by
  rw [syscallRead, findCell_absent h]

theorem syscallWrite_of_memRead_ok {s : State} {d : Data} (h : memRead .noOperand (syscallBuffer s) s = .ok d) :
    syscallWrite s = .ok (emit [.ioWrite (s.reg .bx) (s.reg .cx) (syscallBuffer s) d] s) := by
  rw [syscallWrite, h]

theorem syscallWrite_of_memRead_error {s : State} {f : Fatal}
    (h : memRead .noOperand (syscallBuffer s) s = .error f) : syscallWrite s = .error f := by
  rw [syscallWrite, h]

/-- Settles O32: the declared cell is stored to at its own width, in the state that counts the call. -/
theorem syscallReadFillsBuffer : Obligations.SyscallReadFillsBuffer := by
  intro s c hax hc
  rw [exec_syscall_read hax, syscallRead_declared hc, finish_ok]
  refine ⟨_, ioReadData c.data.width s, rfl, rfl,
    onlyCellIs_storeCell (syscallBuffer s) c _ [] { s with ioCalls := s.ioCalls + 1 }, ?_⟩
  simp [complete, storeCell]

/-- Settles O33: MemRead answers the cell's Data, which the event carries. -/
theorem syscallWriteEmitsBuffer : Obligations.SyscallWriteEmitsBuffer := by
  intro s c hax hc hr
  rw [exec_syscall_write hax, syscallWrite_of_memRead_ok (memRead_readable hc hr), finish_ok]
  rfl

/-- Settles O35: number 1 faults where the cell is not found, number 2 where MemRead does. -/
theorem syscallMemoryFaults : Obligations.SyscallMemoryFaults := by
  intro s
  simp only [← toNat_syscallBuffer]
  refine ⟨?undeclared, ?unwritten⟩
  case undeclared =>
    rintro (hax | hax) hc
    · rw [exec_syscall_read hax, syscallRead_absent hc, finish_error]
    · rw [exec_syscall_write hax, syscallWrite_of_memRead_error (memRead_absent hc), finish_error]
  case unwritten =>
    intro c hax hc hw hz
    rw [exec_syscall_write hax, syscallWrite_of_memRead_error (memRead_unwritten hc hw hz), finish_error]

end Sys2Proof.Machine
end

section
/-! PROOFS. Fault entry, precise faults from Fetching, and the next state every instruction answers (60_exceptions R180,
R191, R192; 42_add_sub R153; 43_syscall R170). -/

namespace Sys2Proof.Machine

/-! ## Fault entry (60_exceptions R191) -/

/-- The record's index is the one fetched from, IP being one past it. -/
theorem ip_sub_one_of_ip_succ {s : State} {i : Nat} (h : s.ip = BitVec.ofNat 16 (i + 1)) :
    s.ip - 1 = BitVec.ofNat 16 i := by
  rw [h, BitVec.ofNat_add]
  exact BitVec.add_sub_cancel ..

/-- Settles O36: `raise` writes the record and the run state, the record's index being IP - 1. -/
theorem faultEntryRecordsCause : Obligations.FaultEntryRecordsCause := by
  intro f s i _ hip
  rw [raise, ip_sub_one_of_ip_succ hip]

/-- Fault entry after the fetch names the index the fetch read from (40_decode R111, 60_exceptions R191). -/
theorem raise_afterFetch (f : Fatal) (w : W96) (s : State) :
    raise f (afterFetch w s) =
      { s with ip := s.ip + 1, fault := ⟨f.cause, s.ip, f.operand, f.info⟩, st := .halted .fault } := by
  have hindex : (afterFetch w s).ip - 1 = s.ip := BitVec.add_sub_cancel ..
  rw [raise, hindex]
  rfl

/-! ## Precise faults (60_exceptions R192) -/

/-- A fatal error that a program can raise (42_add_sub R153, 60_exceptions R180). -/
def Fatal.Raisable (f : Fatal) : Prop := f.cause ≠ .none ∧ f.cause ≠ .aluModeOff

theorem raisable_of_memory_cause {f : Fatal}
    (h : f.cause = .undeclaredMemoryAccess ∨ f.cause = .useOfUninitializedMemory) : f.Raisable := by
  rcases h with h | h <;> simp [Fatal.Raisable, h]

theorem raisable_fatal (e : DecodeReject) : e.fatal.Raisable :=
  ⟨fatal_cause_ne_none e, fatal_cause_ne_aluModeOff e⟩

/-- A word that ends in Halted(Fault) did nothing but enter one raisable fatal error: an instruction's memory fault, or
the decoder's reject. -/
theorem eq_raise_of_executeWord_of_faulted {s t : State} {w : W96} (he : executeWord w s = .next t)
    (ht : t.st = .halted .fault) : ∃ f : Fatal, f.Raisable ∧ t = raise f s := by
  rcases ends_or_raise_of_executeWord he with hends | ⟨e, rfl⟩
  · cases hends with
    | completes _ => cases ht
    | faults hcause => exact ⟨_, raisable_of_memory_cause hcause, rfl⟩
    | exits => cases ht
  · exact ⟨e.fatal, raisable_fatal e, rfl⟩

/-- Settles O38: of the ways a step answers from Fetching, only the execution of a word ends in Halted(Fault), and it
does so by fault entry in the state after the fetch. -/
theorem faultsArePrecise : Obligations.FaultsArePrecise := by
  intro s t hst hstep ht
  cases steps_of_step hstep with
  | run hidle => cases hst.symm.trans hidle
  | endOfCode => cases ht
  | word _ _ _ he =>
    obtain ⟨f, ⟨hnone, halu⟩, rfl⟩ := eq_raise_of_executeWord_of_faulted he ht
    exact ⟨f, hnone, halu, raise_afterFetch ..⟩
  | half hdec => cases hst.symm.trans hdec

/-! ## Every instruction answers (60_exceptions R180) -/

/-- Settles O46: each of the three ways an instruction ends is a next state and leaves IP as it was. -/
theorem everyInstructionAnswersNext : Obligations.EveryInstructionAnswersNext := by
  intro i s
  obtain ⟨t, hexec, hends⟩ := exec_ends i s
  exact ⟨t, hexec, hends.ip_eq⟩

end Sys2Proof.Machine
end

section
/-! PROOFS. The loader: the machine constructed from a program, and the word loaded where the next fetch reads
(70_reset R212, R213; 40_decode R111). -/

namespace Sys2Proof.Machine

/-! ## Construction from the loader's input (70_reset R213) -/

theorem value_ofValue_zero (w : Width) : (Data.ofValue w 0).value = 0 :=
  Data.value_ofValue_of_lt (Nat.two_pow_pos w.bits)

/-- The declarations are the data entries and the bss entries, each with the cell of its section. -/
theorem mem_declarations_iff {p : Program} {m : SymId} {c : MemCell} :
    (m, c) ∈ p.declarations ↔ (∃ d, (m, d) ∈ p.data ∧ dataCell d = c) ∨ ∃ w, (m, w) ∈ p.bss ∧ bssCell w = c := by
  simp [Program.declarations]

/-- The constructed machine has the declared cell of an id declared once. -/
theorem cellAt_construct_of_mem {p : Program} {m : SymId} {c : MemCell}
    (hp : (p.declarations.map (fun x => x.1)).Nodup) (h : (m, c) ∈ p.declarations) :
    (construct p).mem.cellAt m.toNat = some c :=
  cellAt_declare_of_mem hp h

/-- Settles O30: an entry of either section is a declaration, so its cell is the declared one; an id in neither section
has no declaration. -/
theorem constructedMachineHasProgram : Obligations.ConstructedMachineHasProgram := by
  intro p hp
  refine ⟨?data, ?bss, ?absent, rfl⟩
  case data =>
    intro m d hd
    exact cellAt_construct_of_mem hp (mem_declarations_iff.2 (.inl ⟨d, hd, rfl⟩))
  case bss =>
    intro m w hw
    exact ⟨Data.ofValue w 0, cellAt_construct_of_mem hp (mem_declarations_iff.2 (.inr ⟨w, hw, rfl⟩)),
      Data.width_ofValue w 0, value_ofValue_zero w⟩
  case absent =>
    intro m hdata hbss
    refine cellAt_declare_of_not_mem fun c hc => ?_
    rcases mem_declarations_iff.1 hc with ⟨d, hd, -⟩ | ⟨w, hw, -⟩
    · exact hdata d hd
    · exact hbss w hw

/-! ## The word loaded for the next fetch (70_reset R212, 40_decode R111) -/

theorem decodeTableWord_eq_some_iff {nbits w : Nat} {i : Instr} :
    decodeTableWord nbits w = some i ↔ decodeWord (BitVec.ofNat 96 (w % 2 ^ nbits)) = .ok i := by
  unfold decodeTableWord
  cases decodeWord (BitVec.ofNat 96 (w % 2 ^ nbits)) <;> simp

/-- The loaded word is the one at IP. -/
theorem getElem?_code_withFetchWord (s : State) (nbits w : Nat) :
    (s.withFetchWord nbits w).code[(s.withFetchWord nbits w).ip.toNat]? = some (BitVec.ofNat 96 (w % 2 ^ nbits)) :=
  getElem?_placeWord ..

/-- A word loaded below index 65535 keeps the program within NINSTR's bound. -/
theorem length_code_withFetchWord_le {s : State} (nbits w : Nat) (hl : s.code.length ≤ Config.maxInstr)
    (hip : s.ip.toNat < Config.maxInstr) : (s.withFetchWord nbits w).code.length ≤ Config.maxInstr := by
  rw [State.withFetchWord, length_placeWord]
  exact max_le hl hip

/-- Settles O44: the loaded word is in the program, at IP, so the step executes what it decodes to after the fetch. -/
theorem loadedWordRunsNext : Obligations.LoadedWordRunsNext := by
  intro s w i hl hip hdec
  have hstep := step_word rfl (length_code_withFetchWord_le 96 w hl hip) (getElem?_code_withFetchWord s 96 w)
  exact hstep.trans (executeWord_of_ok _ (decodeTableWord_eq_some_iff.1 hdec))

end Sys2Proof.Machine
end
